-- ==== Sys2Proof/Word.lean ====
section
/-! DEFINITION. The word types of the block: an FB cell, a command word, its 4-bit opcode field (00_scope.md R6,
30_encoding.md R61). -/

namespace Sys2Proof

/-- One FB cell, one operand field, one byte of the frame output stream (R6, R22). -/
abbrev Byte := BitVec 8

/-- One command word `CW[39:0]` (R6, R61). -/
abbrev CmdWord := BitVec 40

/-- The opcode field `OP`, bits 39:36 of a command word (R61). -/
abbrev OpField := BitVec 4

end Sys2Proof
end

