-- ==== Sys2Proof/Config.lean ====
section
/-! DEFINITION. What is fixed for the hardware: the geometry (R5), the stamp constants (R7), and the one open parameter
of the spec, DATA_MARKER (R8). -/

namespace Sys2Proof

/-- A parameter set of the block: its width and height in pixels (R5). -/
structure Geometry where
  width : Nat
  height : Nat
deriving DecidableEq, Repr

/-- `PAGES = HEIGHT / 8` (R5). -/
def Geometry.pages (g : Geometry) : Nat := g.height / 8

/-- `BUF_LEN = PAGES * WIDTH + 1` (R5). -/
def Geometry.bufLen (g : Geometry) : Nat := g.pages * g.width + 1

namespace Config

/-- The instance this spec is written for, 128×64 (R5). -/
def geometry : Geometry := { width := 128, height := 64 }

/-- `BUF_LEN`, the number of FB cells and the length of a frame (R5, R22, R90). -/
abbrev bufLen : Nat := 1025

/-- `STAR_SPACING` (R7). -/
abbrev starSpacing : Int := 5

/-- `HEART_SPACING` (R7). -/
abbrev heartSpacing : Int := 6

/-- `SQUARE_SPACING` (R7). -/
abbrev squareSpacing : Int := 4

/-- `SQUARE_SIZE` (R7). -/
abbrev squareSize : Int := 3

/-- `DATA_MARKER`, the open parameter of R8: a byte with no value in the spec. It has no body, so every proof about the
model holds for all 256 values (U6, log 3). -/
opaque dataMarker : Byte

end Config

end Sys2Proof
end

