-- ==== Sys2Proof/Syntax.lean ====
section
/-! DEFINITION. The eleven commands (R60), one constructor for each row of the opcode table, and the assembler's surface
form of them with the alias PLAIN_RECT (R68, R69). -/

namespace Sys2Proof

/-- A decoded command with its operands in the order of R60. Every operand is an unsigned 8-bit field (R6, R63) and
`v` is the Boolean value, 1 = set, 0 = clear (R13). -/
inductive Instr where
  /-- INIT (R80). -/
  | init
  /-- PIXEL x, y, value (R81). -/
  | pixel (x y : Byte) (v : Bool)
  /-- FILL value (R82). -/
  | fill (v : Bool)
  /-- HLINE x0, x1, y, value (R102). -/
  | hline (x0 x1 y : Byte) (v : Bool)
  /-- VLINE x, y0, y1, value (R103). -/
  | vline (x y0 y1 : Byte) (v : Bool)
  /-- LINE x0, y0, x1, y1, value (R104). -/
  | line (x0 y0 x1 y1 : Byte) (v : Bool)
  /-- RECT top, left, width, height, value (R100). -/
  | rect (top left width height : Byte) (v : Bool)
  /-- STAR top, left, width, height, value (R123). -/
  | star (top left width height : Byte) (v : Bool)
  /-- HEART top, left, width, height, value (R125). -/
  | heart (top left width height : Byte) (v : Bool)
  /-- SQUARE top, left, width, height, value (R127). -/
  | square (top left width height : Byte) (v : Bool)
  /-- FRAME_OUT (R91). -/
  | frameOut
deriving DecidableEq, Repr

/-- The opcode of a command: a row of the opcode map, without operands (R64). -/
inductive Opcode where
  | init | pixel | fill | hline | vline | line | rect | star | heart | square | frameOut
deriving DecidableEq, Repr

/-- The five operand formats (R62). -/
inductive Format where
  /-- Uses nothing. -/
  | n
  /-- Uses V. -/
  | f
  /-- Uses V, A, B. -/
  | p
  /-- Uses V, A, B, C. -/
  | t
  /-- Uses V, A, B, C, D. -/
  | q
deriving DecidableEq, Repr

/-- A line of assembler (R68): mnemonic and operands as the programmer writes them, integers that need not fit a field,
with the pseudo-instruction PLAIN_RECT (R69). -/
inductive Asm where
  | init
  | pixel (x y : Int) (v : Bool)
  | fill (v : Bool)
  | hline (x0 x1 y : Int) (v : Bool)
  | vline (x y0 y1 : Int) (v : Bool)
  | line (x0 y0 x1 y1 : Int) (v : Bool)
  | rect (top left width height : Int) (v : Bool)
  | plainRect (top left width height : Int) (v : Bool)
  | star (top left width height : Int) (v : Bool)
  | heart (top left width height : Int) (v : Bool)
  | square (top left width height : Int) (v : Bool)
  | frameOut
deriving DecidableEq, Repr

end Sys2Proof
end

