-- ==== Sys2Proof/WellFormed.lean ====
section
/-! DEFINITION. The checks on what the outside world supplies: a parameter set (R5, R142), a command word (R62, R65),
a line of assembler (R68). A term of `Instr` needs no check of its own: its operand types admit exactly the values of
the fields (R63), so every `Instr` is well formed. -/

namespace Sys2Proof

/-- A parameter set is well formed only if `HEIGHT mod 8 = 0`, `PAGES = 8` and `1 <= WIDTH <= 128` (R5, R142). -/
def Geometry.wf (g : Geometry) : Bool :=
  g.height % 8 == 0 && g.pages == 8 && (1 ≤ g.width && g.width ≤ 128)

/-- The hardware built from a parameter set: an ill-formed set yields no block at all (R142). -/
def Geometry.build (g : Geometry) : Option Geometry :=
  if g.wf then some g else none

/-- The instance of this model is built (R5, R142): if it were ill formed this file would not compile. -/
theorem Config.geometry_built : Config.geometry.build = some Config.geometry := by decide

/-- The model's buffer length is that of its geometry (R5). -/
theorem Config.bufLen_of_geometry : Config.geometry.bufLen = Config.bufLen := by decide

namespace CmdWord

/-- The opcode field OP, bits 39:36 (R61). -/
def op (w : CmdWord) : OpField := w.extractLsb' 36 4

/-- The reserved field RSV, bits 35:33 (R61). -/
def rsv (w : CmdWord) : BitVec 3 := w.extractLsb' 33 3

/-- The Boolean value V, bit 32 (R61, R13). -/
def v (w : CmdWord) : Bool := w.getLsbD 32

/-- The operand field A, bits 31:24 (R61). -/
def a (w : CmdWord) : Byte := w.extractLsb' 24 8

/-- The operand field B, bits 23:16 (R61). -/
def b (w : CmdWord) : Byte := w.extractLsb' 16 8

/-- The operand field C, bits 15:8 (R61). -/
def c (w : CmdWord) : Byte := w.extractLsb' 8 8

/-- The operand field D, bits 7:0 (R61). -/
def d (w : CmdWord) : Byte := w.extractLsb' 0 8

/-- Whether the fields a format does not use are all zero (R62). -/
def unusedZero (w : CmdWord) : Format → Bool
  | .n => !v w && a w == 0 && b w == 0 && c w == 0 && d w == 0
  | .f => a w == 0 && b w == 0 && c w == 0 && d w == 0
  | .p => c w == 0 && d w == 0
  | .t => d w == 0
  | .q => true

end CmdWord

/-- The opcode number of each command (R64). -/
def Opcode.number : Opcode → OpField
  | .init => 0x1
  | .pixel => 0x2
  | .fill => 0x3
  | .hline => 0x4
  | .vline => 0x5
  | .line => 0x6
  | .rect => 0x7
  | .star => 0x8
  | .heart => 0x9
  | .square => 0xA
  | .frameOut => 0xB

/-- The operand format of each command (R62, R64). -/
def Opcode.format : Opcode → Format
  | .init => .n
  | .pixel => .p
  | .fill => .f
  | .hline => .t
  | .vline => .t
  | .line => .q
  | .rect => .q
  | .star => .q
  | .heart => .q
  | .square => .q
  | .frameOut => .n

/-- The command of an opcode number; none for 0x0 and 0xC to 0xF (R65 a). -/
def Opcode.ofNumber (n : OpField) : Option Opcode :=
  [Opcode.init, .pixel, .fill, .hline, .vline, .line, .rect, .star, .heart, .square, .frameOut].find?
    (fun o => o.number == n)

/-- A command word is legal when its opcode is one of the eleven, RSV is zero and the fields its format does not use
are zero: the negation of R65 (a), (b), (c), read field by field. -/
def CmdWord.wf (w : CmdWord) : Bool :=
  match Opcode.ofNumber (CmdWord.op w) with
  | none => false
  | some o => CmdWord.rsv w == 0 && CmdWord.unusedZero w o.format

/-- A number that fits an operand field: 0 to 255 (R68). -/
def fitsField (n : Int) : Bool := 0 ≤ n && n ≤ 255

/-- A line of assembler every operand of which fits its field (R68). -/
def Asm.wf : Asm → Bool
  | .init => true
  | .pixel x y _ => fitsField x && fitsField y
  | .fill _ => true
  | .hline x0 x1 y _ => fitsField x0 && fitsField x1 && fitsField y
  | .vline x y0 y1 _ => fitsField x && fitsField y0 && fitsField y1
  | .line x0 y0 x1 y1 _ => fitsField x0 && fitsField y0 && fitsField x1 && fitsField y1
  | .rect t l w h _ => fitsField t && fitsField l && fitsField w && fitsField h
  | .plainRect t l w h _ => fitsField t && fitsField l && fitsField w && fitsField h
  | .star t l w h _ => fitsField t && fitsField l && fitsField w && fitsField h
  | .heart t l w h _ => fitsField t && fitsField l && fitsField w && fitsField h
  | .square t l w h _ => fitsField t && fitsField l && fitsField w && fitsField h
  | .frameOut => true

end Sys2Proof
end

