-- ==== Sys2Proof/Decode.lean ====
section
/-! DEFINITION. The decoder, by the mask and match rows of R64, total on every 40-bit word and rejecting by name (R65);
after it the encoder, by the field layout of R61, and the assembler and disassembler (R68, R69). -/

namespace Sys2Proof

/-- A row of the opcode map: the command it selects, `match` and `mask` (R64). -/
structure Row where
  opcode : Opcode
  pattern : CmdWord
  mask : CmdWord
deriving DecidableEq, Repr

/-- A word selects a row when `w & mask = match` (R64). -/
def Row.selects (r : Row) (w : CmdWord) : Bool := w &&& r.mask == r.pattern

/-- The opcode map, as R64 prints it. -/
def opcodeMap : List Row :=
  [ ⟨.init,     0x1000000000, 0xFFFFFFFFFF⟩,
    ⟨.pixel,    0x2000000000, 0xFE0000FFFF⟩,
    ⟨.fill,     0x3000000000, 0xFEFFFFFFFF⟩,
    ⟨.hline,    0x4000000000, 0xFE000000FF⟩,
    ⟨.vline,    0x5000000000, 0xFE000000FF⟩,
    ⟨.line,     0x6000000000, 0xFE00000000⟩,
    ⟨.rect,     0x7000000000, 0xFE00000000⟩,
    ⟨.star,     0x8000000000, 0xFE00000000⟩,
    ⟨.heart,    0x9000000000, 0xFE00000000⟩,
    ⟨.square,   0xA000000000, 0xFE00000000⟩,
    ⟨.frameOut, 0xB000000000, 0xFFFFFFFFFF⟩ ]

/-- The three ways a word is illegal (R65). DESIGN CHOICE (log 13): where several hold the first is named; nothing
in the block can see which. -/
inductive IllegalReason where
  /-- OP is 0x0, 0xC, 0xD, 0xE or 0xF (R65 a). -/
  | undefinedOpcode
  /-- RSV is not 000 (R65 b). -/
  | reservedBits
  /-- A field the format requires to be zero is not zero (R65 c). -/
  | unusedField
deriving DecidableEq, Repr

/-- Why a word that selects no row is illegal (R65). -/
def illegalReason (w : CmdWord) : IllegalReason :=
  match Opcode.ofNumber (CmdWord.op w) with
  | none => .undefinedOpcode
  | some _ => if CmdWord.rsv w = 0 then .unusedField else .reservedBits

/-- The operands of a word, in the order of R60: field A first, the value always V (R61, R64). -/
def Opcode.operands (o : Opcode) (w : CmdWord) : Instr :=
  match o with
  | .init => .init
  | .pixel => .pixel (CmdWord.a w) (CmdWord.b w) (CmdWord.v w)
  | .fill => .fill (CmdWord.v w)
  | .hline => .hline (CmdWord.a w) (CmdWord.b w) (CmdWord.c w) (CmdWord.v w)
  | .vline => .vline (CmdWord.a w) (CmdWord.b w) (CmdWord.c w) (CmdWord.v w)
  | .line => .line (CmdWord.a w) (CmdWord.b w) (CmdWord.c w) (CmdWord.d w) (CmdWord.v w)
  | .rect => .rect (CmdWord.a w) (CmdWord.b w) (CmdWord.c w) (CmdWord.d w) (CmdWord.v w)
  | .star => .star (CmdWord.a w) (CmdWord.b w) (CmdWord.c w) (CmdWord.d w) (CmdWord.v w)
  | .heart => .heart (CmdWord.a w) (CmdWord.b w) (CmdWord.c w) (CmdWord.d w) (CmdWord.v w)
  | .square => .square (CmdWord.a w) (CmdWord.b w) (CmdWord.c w) (CmdWord.d w) (CmdWord.v w)
  | .frameOut => .frameOut

/-- The decoder: the command of the first row the word selects, or why there is none (R64, R65). -/
def decode (w : CmdWord) : Except IllegalReason Instr :=
  match opcodeMap.find? (fun r => r.selects w) with
  | some r => .ok (r.opcode.operands w)
  | none => .error (illegalReason w)

/-- A command word from its fields, RSV zero (R61). -/
def packWord (op : OpField) (v : Bool) (a b c d : Byte) : CmdWord :=
  (op.setWidth 40 <<< 36) ||| ((BitVec.ofBool v).setWidth 40 <<< 32) ||| (a.setWidth 40 <<< 24) |||
    (b.setWidth 40 <<< 16) ||| (c.setWidth 40 <<< 8) ||| d.setWidth 40

/-- The opcode of a command. -/
def Instr.opcode : Instr → Opcode
  | .init => .init
  | .pixel _ _ _ => .pixel
  | .fill _ => .fill
  | .hline _ _ _ _ => .hline
  | .vline _ _ _ _ => .vline
  | .line _ _ _ _ _ => .line
  | .rect _ _ _ _ _ => .rect
  | .star _ _ _ _ _ => .star
  | .heart _ _ _ _ _ => .heart
  | .square _ _ _ _ _ => .square
  | .frameOut => .frameOut

/-- The encoder: the word of a command, its operands filling A, B, C, D in order and the rest zero (R61, R62). -/
def encode (i : Instr) : CmdWord :=
  match i with
  | .init => packWord i.opcode.number false 0 0 0 0
  | .pixel x y v => packWord i.opcode.number v x y 0 0
  | .fill v => packWord i.opcode.number v 0 0 0 0
  | .hline x0 x1 y v => packWord i.opcode.number v x0 x1 y 0
  | .vline x y0 y1 v => packWord i.opcode.number v x y0 y1 0
  | .line x0 y0 x1 y1 v => packWord i.opcode.number v x0 y0 x1 y1
  | .rect t l w h v => packWord i.opcode.number v t l w h
  | .star t l w h v => packWord i.opcode.number v t l w h
  | .heart t l w h v => packWord i.opcode.number v t l w h
  | .square t l w h v => packWord i.opcode.number v t l w h
  | .frameOut => packWord i.opcode.number false 0 0 0 0

/-- The field of an assembler operand that fits (R68). -/
def field (n : Int) : Byte := BitVec.ofInt 8 n

/-- The command a line of assembler stands for; PLAIN_RECT is RECT (R69). -/
def Asm.instr : Asm → Instr
  | .init => .init
  | .pixel x y v => .pixel (field x) (field y) v
  | .fill v => .fill v
  | .hline x0 x1 y v => .hline (field x0) (field x1) (field y) v
  | .vline x y0 y1 v => .vline (field x) (field y0) (field y1) v
  | .line x0 y0 x1 y1 v => .line (field x0) (field y0) (field x1) (field y1) v
  | .rect t l w h v => .rect (field t) (field l) (field w) (field h) v
  | .plainRect t l w h v => .rect (field t) (field l) (field w) (field h) v
  | .star t l w h v => .star (field t) (field l) (field w) (field h) v
  | .heart t l w h v => .heart (field t) (field l) (field w) (field h) v
  | .square t l w h v => .square (field t) (field l) (field w) (field h) v
  | .frameOut => .frameOut

/-- The assembler: a number outside 0 to 255 does not fit its field and the line is rejected (R68). -/
def assemble (l : Asm) : Option CmdWord :=
  if l.wf then some (encode l.instr) else none

/-- A command as the disassembler prints it: RECT, never PLAIN_RECT (R69). -/
def Instr.asm : Instr → Asm
  | .init => .init
  | .pixel x y v => .pixel x.toNat y.toNat v
  | .fill v => .fill v
  | .hline x0 x1 y v => .hline x0.toNat x1.toNat y.toNat v
  | .vline x y0 y1 v => .vline x.toNat y0.toNat y1.toNat v
  | .line x0 y0 x1 y1 v => .line x0.toNat y0.toNat x1.toNat y1.toNat v
  | .rect t l w h v => .rect t.toNat l.toNat w.toNat h.toNat v
  | .star t l w h v => .star t.toNat l.toNat w.toNat h.toNat v
  | .heart t l w h v => .heart t.toNat l.toNat w.toNat h.toNat v
  | .square t l w h v => .square t.toNat l.toNat w.toNat h.toNat v
  | .frameOut => .frameOut

/-- The disassembler: none for an illegal word (R65, R68, R69). -/
def disassemble (w : CmdWord) : Option Asm :=
  match decode w with
  | .ok i => some i.asm
  | .error _ => none

/-- What the decoder reads from a word of the opcode table: the table numbers the 40 bits as R61 does, so the number is
the word (R72: it is presented whole, there is no byte order). -/
def decodeTableWord (nbits w : Nat) : Option Instr :=
  if nbits ≤ 40 then
    match decode (BitVec.ofNat 40 (w % 2 ^ nbits)) with
    | .ok i => some i
    | .error _ => none
  else none

end Sys2Proof
end

