-- ==== Sys2Proof/Machine/State.lean ====
section
/-! DEFINITION. Everything the spec gives the block (10_state.md), the observations that are the result of a run (R184),
the ghost bit of R158, and the outside world's part as plain data (R175, R179). -/

namespace Sys2Proof.Machine

/-- The frame buffer FB: the cells that hold a value, by index, strictly rising. A cell that is not listed holds no
value (R31): nothing has written it since reset (log 1). -/
abbrev Memory := List Host.Cell

/-- The sequencer (R26). BUSY is hard-wired to it (R23). Every command but FRAME_OUT is over within its step (R15), so
the one busy state between two steps is a FRAME_OUT that waits for its consumer (R157, R178). -/
inductive Engine where
  /-- BUSY = 0: a command word can be accepted (R176). -/
  | idle
  /-- BUSY = 1: FRAME_OUT offers the byte of this index, 0 to 1024 (R28, R178). -/
  | emitting (next : Nat)
deriving DecidableEq, Repr

/-- The operand latches (R20): the fields of the last command accepted. No later command reads them. -/
structure Latches where
  a : Byte
  b : Byte
  c : Byte
  d : Byte
  v : Bool
deriving DecidableEq, Repr

/-- The consumer of the frame output stream, by the bytes it is going to take (R90, R178): the spec has no time, so how
many is all there is to say of its pace (log 8). -/
inductive Consumer where
  /-- Takes every byte offered: the fair consumer of R157. -/
  | always
  /-- Takes this many bytes more and then none. -/
  | upTo (n : Nat)
deriving DecidableEq, Repr

/-- What the host may do, the four rows of R179 that are moves. -/
inductive HostMove where
  /-- Assert `rst` and release it (R170). -/
  | reset
  /-- Offer a word on the command port, after those it has already to offer (R176). -/
  | issue (w : CmdWord)
  /-- Read the status outputs: no side effect (R177). Also a turn in which the host does nothing. -/
  | readStatus
  /-- From here on the consumer takes bytes as `c` says (R178). -/
  | consume (c : Consumer)
deriving DecidableEq, Repr

/-- The state of the block, of its observations and of its ports. -/
structure State where
  /-- FB (R22). -/
  fb : Memory
  /-- STATUS.RANGE_ERR (R23). -/
  rangeErr : Bool
  /-- STATUS.ILLEGAL_ERR (R23). -/
  illegalErr : Bool
  /-- The sequencer: STATUS.BUSY and FRAME_OUT's index (R23, R26, R28). -/
  engine : Engine
  /-- The operand latches (R20). -/
  latches : Latches
  /-- The bytes of the frame being emitted that have been taken (R90). -/
  inFlight : List Byte
  /-- Observation: the frames emitted, oldest first (R90, R184). -/
  frames : List (List Byte)
  /-- Observation: the frames a reset cut short, oldest first (R30, R172; log 9). -/
  cutFrames : List (List Byte)
  /-- The ghost bit *fault recorded* (R158). -/
  faultRecorded : Bool
  /-- The words the host has still to issue; the first one stands on the command port (R175, R176). -/
  words : List CmdWord
  /-- The frame consumer's `fo_ready` (R175, R178). -/
  consumer : Consumer
  /-- The host's moves still to come, the next one first (R179; log 6). -/
  moves : List HostMove
deriving DecidableEq, Repr

/-- Why the machine stops with a fault. -/
inductive Fault where
  /-- *Read of uninitialised frame buffer* (R31): raised by MemRead on a cell nothing has written since reset, hence by
  a PixelWrite inside the grid and by FRAME_OUT. Safe: the hardware goes on with an unspecified byte (log 1). -/
  | uninitialisedRead (index : Nat)
  /-- An FB index above 1024: raised by MemRead and MemWrite outside their precondition (R43). Safe, and never raised
  by a command: every index a rule computes is in 0 to 1024 (log 11). -/
  | noSuchCell (index : Nat)
deriving DecidableEq, Repr

/-- Why a step has no meaning in the model. -/
inductive Refusal where
  /-- An instruction the model gives no meaning: raised by no arm of this model. Safe. -/
  | notModelled (mnemonic : String)
deriving DecidableEq, Repr

/-- The block right after reset (R30, R170): no cell of FB holds a value (R31), both flags 0, the engine idle, no byte
pending. The latches, which the spec leaves unspecified, are zero (DESIGN CHOICE, log 5). Nothing is offered, the
consumer is fair and the host has no move (DESIGN CHOICE, log 6 to log 8): those are the outside world's. -/
def State.reset : State where
  fb := []
  rangeErr := false
  illegalErr := false
  engine := .idle
  latches := { a := 0, b := 0, c := 0, d := 0, v := false }
  inFlight := []
  frames := []
  cutFrames := []
  faultRecorded := false
  words := []
  consumer := .always
  moves := []

/-- The outcome of a command or a step. -/
abbrev Result := Host.Outcome State Fault Refusal

end Sys2Proof.Machine
end

