-- ==== Sys2Proof/Machine/Flags.lean ====
section
/-! DEFINITION. STATUS (R23), the error causes (R140) and the two things that happen to the flags: an error is raised
(R141, R143, R144) and INIT clears both (R80, R149). -/

namespace Sys2Proof.Machine

/-- STATUS.BUSY (R23, R26). -/
def State.busy (s : State) : Bool :=
  match s.engine with
  | .idle => false
  | .emitting _ => true

/-- The status register: BUSY, RANGE_ERR, ILLEGAL_ERR at bits 0, 1, 2; bits 7:3 read as 0 (R23). -/
def State.status (s : State) : BitVec 8 :=
  ((BitVec.ofBool s.illegalErr).setWidth 8 <<< 2) ||| ((BitVec.ofBool s.rangeErr).setWidth 8 <<< 1) |||
    (BitVec.ofBool s.busy).setWidth 8

/-- The complete list of error causes (R140). -/
inductive ErrorCause where
  | rangeError
  | illegalCommand
  | configurationError
  | transportError
deriving DecidableEq, Repr

/-- The code of a cause (R140). -/
def ErrorCause.code : ErrorCause → Nat
  | .rangeError => 1
  | .illegalCommand => 2
  | .configurationError => 3
  | .transportError => 4

/-- `raise`: set the cause's sticky flag, and nothing else: no control is transferred and nothing is saved (R14, R141).
The ghost bit is set with it (R158). The last two causes are raised by nothing in the block and recorded nowhere in
it (R140, R142, R145). -/
def raise (c : ErrorCause) (s : State) : State :=
  match c with
  | .rangeError => { s with rangeErr := true, faultRecorded := true }
  | .illegalCommand => { s with illegalErr := true, faultRecorded := true }
  | .configurationError => s
  | .transportError => s

/-- Both sticky flags to 0, as INIT does (R80, R149). The ghost bit stays: it is cleared by nothing (R158). -/
def clearErrors (s : State) : State := { s with rangeErr := false, illegalErr := false }

end Sys2Proof.Machine
end

