-- ==== Sys2Proof/Machine/Memory.lean ====
section
/-! DEFINITION. FB as data: reading and writing one cell, and the canonical form of the list of cells (R40, R43). -/

namespace Sys2Proof.Machine

/-- The value of a cell, none where nothing has written it since reset (R31). -/
def Memory.read : Memory → Nat → Option Byte
  | [], _ => none
  | (a, b) :: m, i => if a = i then some b else Memory.read m i

/-- FB with one cell replaced and no other changed (R43), kept in rising order of index. -/
def Memory.write : Memory → Nat → Byte → Memory
  | [], i, v => [(i, v)]
  | (a, b) :: m, i, v =>
    if i < a then (i, v) :: (a, b) :: m
    else if i = a then (i, v) :: m
    else (a, b) :: Memory.write m i v

/-- The canonical form: indexes strictly rising, all inside FB (R40). An unlisted cell holds no value, so no listed
cell repeats it. Two memories in this form that read the same are the same list. -/
def Memory.wf : Memory → Bool
  | [] => true
  | (a, _) :: m => a < Config.bufLen && (m.all fun c => a < c.1) && Memory.wf m

end Sys2Proof.Machine
end

