-- ==== Sys2Proof/Machine/Operands.lean ====
section
/-! DEFINITION. The one operand form of the block, an 8-bit field zero extended (R63), the coordinates made of it, and
the address decoder (R44, R50). -/

namespace Sys2Proof.Machine

/-- `zext(f)`: an operand field as an unbounded signed integer, 0 to 255 (R11, R14). -/
def zext (f : Byte) : Int := f.toNat

/-- A coordinate pair: column and row, any integers (R12). -/
structure Point where
  x : Int
  y : Int
deriving DecidableEq, Repr

/-- Whether a coordinate pair is on the 128×64 grid (R12, R45). The test is made on the integers, before any
truncation (R46). -/
def inGrid (x y : Int) : Bool := 0 ≤ x && x < 128 && 0 ≤ y && y < 64

/-- `index(x, y) = (y >> 3) + (x << 3) + 1` (R44). -/
def cellIndex (x y : Int) : Nat := (y.toNat >>> 3) + (x.toNat <<< 3) + 1

/-- `bit(x, y) = y & 7` (R44). -/
def cellBit (_x y : Int) : Nat := y.toNat &&& 7

/-- The column of the pixel in cell `i`: `(i - 1) >> 3` (R50). -/
def pixelX (i : Nat) : Int := ((i - 1) >>> 3 : Nat)

/-- The row of the pixel in bit `b` of cell `i`: `8 * ((i - 1) & 7) + b` (R50). -/
def pixelY (i b : Nat) : Int := (8 * ((i - 1) &&& 7) + b : Nat)

/-- `for k in a .. b`: the values `a, a+1, …, b` in that order, none when `a > b` (R14). -/
def upto (a b : Int) : List Int := (List.range (b - a + 1).toNat).map fun (k : Nat) => a + (k : Int)

end Sys2Proof.Machine
end

