-- ==== Sys2Proof/Machine/Ops.lean ====
section
/-! DEFINITION. The operations the commands share: MemRead and MemWrite (R43), sequencing, the pixel packer with its
range guard (R45, R46), and drawing a list of pixels. -/

namespace Sys2Proof.Machine

/-- `MemRead(i, 1)` (R43): the cell's value; a cell that holds none is the model's fault (R31). -/
def memRead (i : Nat) (s : State) : Except Fault Byte :=
  if i < Config.bufLen then
    match s.fb.read i with
    | some b => .ok b
    | none => .error (.uninitialisedRead i)
  else .error (.noSuchCell i)

/-- `MemWrite(i, 1, b)` (R43). -/
def memWrite (i : Nat) (b : Byte) (s : State) : Result :=
  if i < Config.bufLen then .next { s with fb := s.fb.write i b } else .fault (.noSuchCell i)

/-- One piece of a command and then the next, unless the first stops. -/
def andThen (r : Result) (f : State → Result) : Result :=
  match r with
  | .next s => f s
  | .fault e => .fault e
  | .refused e => .refused e

/-- `for a in as: f a` (R14). -/
def forEach {α : Type} (f : α → State → Result) : List α → State → Result
  | [], s => .next s
  | a :: as, s => andThen (f a s) (forEach f as)

/-- The cell with bit `b` set or cleared and the other seven kept (R45). -/
def packBit (old : Byte) (b : Nat) (v : Bool) : Byte :=
  if v then old ||| (1#8 <<< b) else old &&& ~~~(1#8 <<< b)

/-- `PixelWrite(x, y, v)` (R45): read, modify and write one cell inside the grid; outside it no memory access, only
RangeError, and the command goes on (R46). -/
def pixelWrite (x y : Int) (v : Bool) (s : State) : Result :=
  if inGrid x y then
    match memRead (cellIndex x y) s with
    | .ok old => memWrite (cellIndex x y) (packBit old (cellBit x y) v) s
    | .error e => .fault e
  else .next (raise .rangeError s)

/-- PixelWrite of every point of a list in order, all with the same value (R108). -/
def drawPoints (ps : List Point) (v : Bool) (s : State) : Result :=
  forEach (fun p => pixelWrite p.x p.y v) ps s

end Sys2Proof.Machine
end

