-- ==== Sys2Proof/Machine/FrameOutput.lean ====
section
/-! DEFINITION. The frame output stream and FRAME_OUT (41_frame_output.md), with its wait for the consumer (R157,
R178). -/

namespace Sys2Proof.Machine

/-- The consumer after it has taken one more byte, none if it takes no more (R178). -/
def Consumer.take : Consumer → Option Consumer
  | .always => some .always
  | .upTo 0 => none
  | .upTo (n + 1) => some (.upTo n)

/-- Whether the consumer takes `n` bytes more: the named premise of R157. -/
def Consumer.takes (c : Consumer) (n : Nat) : Bool :=
  match c with
  | .always => true
  | .upTo m => n ≤ m

/-- The consumer after it has taken `n` bytes. -/
def Consumer.after (c : Consumer) (n : Nat) : Consumer :=
  match c with
  | .always => .always
  | .upTo m => .upTo (m - n)

/-- `emit(b)` (R90): the consumer, now `c`, has taken byte `b` of the frame in flight. -/
def emit (b : Byte) (c : Consumer) (s : State) : State :=
  { s with inFlight := s.inFlight ++ [b], consumer := c }

/-- The frame in flight is whole: it joins the frames emitted and the engine is idle again (R90, R91). -/
def endFrame (s : State) : State :=
  { s with frames := s.frames ++ [s.inFlight], inFlight := [], engine := .idle }

/-- `for i' in i .. : emit(MemRead(i', 1))`, for the `count` bytes still to go (R91). Each byte is read, offered, and
passed only when the consumer takes it; if it does not, the engine stays busy with that byte on offer (R157). -/
def emitFrom : Nat → Nat → State → Result
  | 0, _, s => .next (endFrame s)
  | count + 1, i, s =>
    match memRead i s with
    | .error e => .fault e
    | .ok b =>
      match s.consumer.take with
      | some c => emitFrom count (i + 1) (emit b c s)
      | none => .next { s with engine := .emitting i }

/-- FRAME_OUT (R91): a new frame, from FB[0] on. -/
def execFrameOut (s : State) : Result :=
  emitFrom Config.bufLen 0 { s with inFlight := [] }

/-- A FRAME_OUT that waits at byte `i` goes on as far as the consumer now lets it (R157, R178). -/
def resumeFrame (i : Nat) (s : State) : Result :=
  emitFrom (Config.bufLen - i) i s

end Sys2Proof.Machine
end

