-- ==== Sys2Proof/Machine/Framebuffer.lean ====
section
/-! DEFINITION. The framebuffer commands INIT, PIXEL and FILL (40_framebuffer.md). -/

namespace Sys2Proof.Machine

/-- What INIT writes to the cell of an index: the marker at 0, zero to the plane (R80). -/
def initByte (i : Nat) : Byte := if i = 0 then Config.dataMarker else 0

/-- INIT (R80): write every cell, clear both sticky flags. It reads no cell, so it is defined on an FB that holds no
values. -/
def execInit (s : State) : Result :=
  andThen (forEach (fun i => memWrite i (initByte i)) (List.range Config.bufLen) s) fun t => .next (clearErrors t)

/-- PIXEL x, y, value (R81). -/
def execPixel (x y : Byte) (v : Bool) (s : State) : Result :=
  pixelWrite (zext x) (zext y) v s

/-- The pixels FILL visits: rows outermost (R82). -/
def fillPoints : List Point :=
  (upto 0 63).flatMap fun y => (upto 0 127).map fun x => ⟨x, y⟩

/-- FILL value (R82). -/
def execFill (v : Bool) (s : State) : Result :=
  drawPoints fillPoints v s

end Sys2Proof.Machine
end

