-- ==== Sys2Proof/Machine/Rasterizer.lean ====
section
/-! DEFINITION. The rasteriser commands RECT, HLINE, VLINE and LINE (42_rasterizer.md). -/

namespace Sys2Proof.Machine

/-- The pixels of `RectOutline(top, left, w, h, v)`, in the order of its two passes (R100). -/
def rectPoints (top left w h : Int) : List Point :=
  ((upto 0 (w - 1)).flatMap fun i => [⟨left + i, top⟩, ⟨left + i, top + h - 1⟩]) ++
    (upto 0 (h - 1)).flatMap fun j => [⟨left, top + j⟩, ⟨left + w - 1, top + j⟩]

/-- RECT top, left, width, height, value (R100). -/
def execRect (top left width height : Byte) (v : Bool) (s : State) : Result :=
  drawPoints (rectPoints (zext top) (zext left) (zext width) (zext height)) v s

/-- The pixels of HLINE: `x` from `x0` to `x1` inclusive, none when `x0 > x1` (R102). -/
def hlinePoints (x0 x1 y : Int) : List Point := (upto x0 x1).map fun x => ⟨x, y⟩

/-- HLINE x0, x1, y, value (R102). -/
def execHline (x0 x1 y : Byte) (v : Bool) (s : State) : Result :=
  drawPoints (hlinePoints (zext x0) (zext x1) (zext y)) v s

/-- The pixels of VLINE: `y` from `y0` to `y1` inclusive, none when `y0 > y1` (R103). -/
def vlinePoints (x y0 y1 : Int) : List Point := (upto y0 y1).map fun y => ⟨x, y⟩

/-- VLINE x, y0, y1, value (R103). -/
def execVline (x y0 y1 : Byte) (v : Bool) (s : State) : Result :=
  drawPoints (vlinePoints (zext x) (zext y0) (zext y1)) v s

/-- The working registers of LINE that its loop does not change (R24, R104): the endpoint, the deltas, the step
signs. -/
structure LineParams where
  x1 : Int
  y1 : Int
  dx : Int
  dy : Int
  sx : Int
  sy : Int
deriving DecidableEq, Repr

/-- The working registers of LINE that its loop changes (R24, R104): the current point and the error term. -/
structure LineWork where
  cx : Int
  cy : Int
  err : Int
deriving DecidableEq, Repr

/-- The set-up of LINE (R104). A step sign is -1 on a zero delta (R105). -/
def lineParams (x0 y0 x1 y1 : Int) : LineParams where
  x1 := x1
  y1 := y1
  dx := (x1 - x0).natAbs
  dy := (y1 - y0).natAbs
  sx := if x0 < x1 then 1 else -1
  sy := if y0 < y1 then 1 else -1

/-- The start of LINE's loop: `err = dx - dy` at the first endpoint (R104). -/
def lineStart (x0 y0 x1 y1 : Int) : LineWork where
  cx := x0
  cy := y0
  err := (lineParams x0 y0 x1 y1).dx - (lineParams x0 y0 x1 y1).dy

/-- LINE's loop exits after it has plotted the endpoint (R104). -/
def LineWork.atEnd (p : LineParams) (w : LineWork) : Bool := w.cx == p.x1 && w.cy == p.y1

/-- The x test and update of LINE's loop, on the one value `e2` (R104). -/
def LineWork.stepX (p : LineParams) (e2 : Int) (w : LineWork) : LineWork :=
  if e2 > -p.dy then { w with err := w.err - p.dy, cx := w.cx + p.sx } else w

/-- The y test and update of LINE's loop, on the same `e2` (R104). -/
def LineWork.stepY (p : LineParams) (e2 : Int) (w : LineWork) : LineWork :=
  if e2 < p.dx then { w with err := w.err + p.dx, cy := w.cy + p.sy } else w

/-- One iteration of LINE's loop after the plot and the exit test (R104). -/
def LineWork.advance (p : LineParams) (w : LineWork) : LineWork :=
  (w.stepX p (2 * w.err)).stepY p (2 * w.err)

/-- The working registers at each plot of LINE's loop, at most `fuel` of them (R104). -/
def lineTrace (p : LineParams) : Nat → LineWork → List LineWork
  | 0, _ => []
  | fuel + 1, w => w :: if w.atEnd p then [] else lineTrace p fuel (w.advance p)

/-- The plots of LINE from its operands. The bound on the iterations is `dx + dy + 1`, which R106 shows the loop never
reaches but in exiting (log 14). -/
def lineWorks (x0 y0 x1 y1 : Int) : List LineWork :=
  lineTrace (lineParams x0 y0 x1 y1) ((x1 - x0).natAbs + (y1 - y0).natAbs + 1) (lineStart x0 y0 x1 y1)

/-- The pixels of LINE, in the order plotted (R104). -/
def linePoints (x0 y0 x1 y1 : Int) : List Point :=
  (lineWorks x0 y0 x1 y1).map fun w => ⟨w.cx, w.cy⟩

/-- LINE x0, y0, x1, y1, value (R104). -/
def execLine (x0 y0 x1 y1 : Byte) (v : Bool) (s : State) : Result :=
  drawPoints (linePoints (zext x0) (zext y0) (zext x1) (zext y1)) v s

end Sys2Proof.Machine
end

