-- ==== Sys2Proof/Machine/Stamps.lean ====
section
/-! DEFINITION. The stamp commands STAR, HEART and SQUARE (43_stamps.md). PLAIN_RECT is RECT (R128). -/

namespace Sys2Proof.Machine

/-- `while k * S < w`: the sample offsets `k*S, (k+1)*S, …` below the size, at most `fuel` of them (R120). -/
def walkOffsetsFrom (spacing size : Int) : Nat → Int → List Int
  | 0, _ => []
  | fuel + 1, k => if k * spacing < size then k * spacing :: walkOffsetsFrom spacing size fuel (k + 1) else []

/-- The sample offsets along an edge of `size` pixels (R120). As `S >= 1` there are at most `size` of them
(log 14). -/
def walkOffsets (spacing size : Int) : List Int := walkOffsetsFrom spacing size size.toNat 0

/-- The pixels of `Walk(top, left, w, h, S, Q, Stamp, v)`, in order (R120): a stamp at each sample of the top and bottom
edges, then of the left and right edges. -/
def walkPoints (top left w h spacing q : Int) (stamp : Int → Int → List Point) : List Point :=
  ((walkOffsets spacing w).flatMap fun o => stamp (left + o) top ++ stamp (left + o) (top + h - q)) ++
    (walkOffsets spacing h).flatMap fun o => stamp left (top + o) ++ stamp (left + w - q) (top + o)

/-- The one-pixel stamp with which the walk is a rectangle outline (R128). -/
def dotStamp (px py : Int) : List Point := [⟨px, py⟩]

/-- The star pattern, anchored at its centre: centre, north, south, west, east (R122). -/
def starStamp (px py : Int) : List Point :=
  [⟨px, py⟩, ⟨px, py - 1⟩, ⟨px, py + 1⟩, ⟨px - 1, py⟩, ⟨px + 1, py⟩]

/-- The heart pattern, anchored at its centre (R124). -/
def heartStamp (px py : Int) : List Point :=
  [⟨px, py⟩, ⟨px - 1, py - 1⟩, ⟨px + 1, py - 1⟩, ⟨px - 2, py⟩, ⟨px + 2, py⟩, ⟨px - 1, py + 1⟩, ⟨px + 1, py + 1⟩,
    ⟨px, py + 2⟩]

/-- The square pattern, anchored at its top-left corner: the outline of a 3×3 rectangle (R126). -/
def squareStamp (px py : Int) : List Point :=
  rectPoints py px Config.squareSize Config.squareSize

/-- The pixels of STAR (R123). -/
def starPoints (top left w h : Int) : List Point :=
  walkPoints top left w h Config.starSpacing 1 starStamp

/-- The pixels of HEART (R125). -/
def heartPoints (top left w h : Int) : List Point :=
  walkPoints top left w h Config.heartSpacing 1 heartStamp

/-- The pixels of SQUARE: the far edges are offset by the square's size (R127). -/
def squarePoints (top left w h : Int) : List Point :=
  walkPoints top left w h Config.squareSpacing Config.squareSize squareStamp

/-- STAR top, left, width, height, value (R123). -/
def execStar (top left width height : Byte) (v : Bool) (s : State) : Result :=
  drawPoints (starPoints (zext top) (zext left) (zext width) (zext height)) v s

/-- HEART top, left, width, height, value (R125). -/
def execHeart (top left width height : Byte) (v : Bool) (s : State) : Result :=
  drawPoints (heartPoints (zext top) (zext left) (zext width) (zext height)) v s

/-- SQUARE top, left, width, height, value (R127). -/
def execSquare (top left width height : Byte) (v : Bool) (s : State) : Result :=
  drawPoints (squarePoints (zext top) (zext left) (zext width) (zext height)) v s

end Sys2Proof.Machine
end

