-- ==== Sys2Proof/Machine/Dispatch.lean ====
section
/-! DEFINITION. One arm for each command: its meaning. -/

namespace Sys2Proof.Machine

def exec (i : Instr) (s : State) : Host.Outcome State Fault Refusal :=
  match i with
  -- 40_framebuffer.md
  | .init => Sys2Proof.Machine.execInit s
  | .pixel x y v => Sys2Proof.Machine.execPixel x y v s
  | .fill v => Sys2Proof.Machine.execFill v s
  -- 42_rasterizer.md
  | .hline x0 x1 y v => Sys2Proof.Machine.execHline x0 x1 y v s
  | .vline x y0 y1 v => Sys2Proof.Machine.execVline x y0 y1 v s
  | .line x0 y0 x1 y1 v => Sys2Proof.Machine.execLine x0 y0 x1 y1 v s
  | .rect top left width height v => Sys2Proof.Machine.execRect top left width height v s
  -- 43_stamps.md
  | .star top left width height v => Sys2Proof.Machine.execStar top left width height v s
  | .heart top left width height v => Sys2Proof.Machine.execHeart top left width height v s
  | .square top left width height v => Sys2Proof.Machine.execSquare top left width height v s
  -- 41_frame_output.md
  | .frameOut => Sys2Proof.Machine.execFrameOut s

end Sys2Proof.Machine
end

