-- ==== Sys2Proof/Machine/Sequencer.lean ====
section
/-! DEFINITION. The sequencer and the ports (70_reset_and_hazards.md): accepting a word, reset, the host's moves, the
output signals. -/

namespace Sys2Proof.Machine

/-- The operand latches take the fields of the word that is accepted (R20). -/
def latch (w : CmdWord) (s : State) : State :=
  { s with latches := { a := CmdWord.a w, b := CmdWord.b w, c := CmdWord.c w, d := CmdWord.d w, v := CmdWord.v w } }

/-- The transfer of a word on the command port (R176): a legal one is latched and executed to completion (R15, R26), an
illegal one is consumed, raises IllegalCommand and does nothing else (R65, R144). -/
def accept (w : CmdWord) (s : State) : Result :=
  match decode w with
  | .ok i => exec i (latch w s)
  | .error _ => .next (raise .illegalCommand s)

/-- One action of the engine: go on with the frame in flight, or accept the word on offer, or wait for one (R26,
R156, R176). -/
def engineTurn (s : State) : Result :=
  match s.engine with
  | .emitting i => resumeFrame i s
  | .idle =>
    match s.words with
    | [] => .next s
    | w :: ws => accept w { s with words := ws }

/-- Reset (R170, R172): the block's own state as after reset, FB holding no values (R31; log 9). The outside world keeps
its own: the words it still holds, the consumer, its moves, the frames it has received, the cut-short frame among
them. The ghost bit is cleared by nothing (R158). -/
def resetBlock (s : State) : State :=
  { State.reset with
    words := s.words
    consumer := s.consumer
    moves := s.moves
    frames := s.frames
    cutFrames := match s.engine with
      | .idle => s.cutFrames
      | .emitting _ => s.cutFrames ++ [s.inFlight]
    faultRecorded := s.faultRecorded }

/-- A move of the host other than reset (R179). -/
def hostMove (m : HostMove) (s : State) : State :=
  match m with
  | .reset => s
  | .issue w => { s with words := s.words ++ [w] }
  | .readStatus => s
  | .consume c => { s with consumer := c }

/-- One turn of the whole: the host's next move, if it has one, then one action of the engine; while `rst` is asserted
the engine does nothing else (R170; log 6). -/
def turn (s : State) : Result :=
  match s.moves with
  | [] => engineTurn s
  | .reset :: ms => .next (resetBlock { s with moves := ms })
  | m :: ms => engineTurn (hostMove m { s with moves := ms })

/-- `cmd_valid` and `cmd_word` (R175): the word on the command port. -/
def cmdWord (s : State) : Option CmdWord := s.words.head?

/-- `cmd_ready`: the complement of BUSY (R176). -/
def cmdReady (s : State) : Bool := !s.busy

/-- `fo_valid`: 1 only during FRAME_OUT (R178). -/
def foValid (s : State) : Bool := s.busy

/-- `fo_data`: the byte on offer (R178), none outside FRAME_OUT. -/
def foData (s : State) : Option Byte :=
  match s.engine with
  | .idle => none
  | .emitting i => s.fb.read i

/-- `fo_last`: asserted with the byte of index 1024 and with no other (R178). -/
def foLast (s : State) : Bool :=
  match s.engine with
  | .idle => false
  | .emitting i => i == Config.bufLen - 1

/-- The state in which the very next turn accepts `w`: `w` is the next word on the command port, the engine is idle,
and the host's turn is a read of STATUS, which has no side effect (log 7). -/
def offerNext (w : CmdWord) (s : State) : State :=
  { s with words := w :: s.words, engine := .idle, inFlight := [], moves := .readStatus :: s.moves }

end Sys2Proof.Machine
end

