-- ==== Sys2Proof/Machine/Step.lean ====
section
/-! DEFINITION. One step of the machine, and how the host of this pipeline has one word executed. -/

namespace Sys2Proof.Machine

/-- One step: the host's next move and one action of the engine, a whole command (R15, R26, R179). -/
def step (s : State) : Host.Outcome State Fault Refusal := turn s

/-- `s` with the word of the opcode table offered so that the next step accepts exactly it: commands are not fetched
from memory but come over the command port (R21, R55, R72; log 7). -/
def State.withFetchWord (s : State) (nbits w : Nat) : State :=
  offerNext (BitVec.ofNat 40 (w % 2 ^ nbits)) s

end Sys2Proof.Machine
end

