-- ==== Sys2Proof/Safety.lean ====
section
/-! DEFINITION. The terms the claims use: an initialised FB, the invariant of the machine, a safe run, and what a drawing
command does to the picture. -/

namespace Sys2Proof.Machine

/-- Cell `i` of FB holds a value (R31). -/
def State.holds (s : State) (i : Nat) : Prop := ∃ b, s.fb.read i = some b

/-- Every cell of FB holds a value: FB as INIT leaves it, until the next reset (R31, R80). -/
def State.initialised (s : State) : Prop := ∀ i, i < Config.bufLen → s.holds i

/-- No error has been recorded since the machine's first reset (R158). -/
def State.noFaultRecorded (s : State) : Prop := s.faultRecorded = false

/-- The invariant every step keeps. -/
structure State.Inv (s : State) : Prop where
  /-- FB is in its canonical form, inside 0 to 1024 (R40). -/
  canonical : s.fb.wf = true
  /-- FB holds no value at all or a value in every cell (R31, R80): only INIT writes a cell that holds none. -/
  wholeOrEmpty : s.fb = [] ∨ s.initialised
  /-- FB[0] holds nothing but the marker (R47). -/
  marker : ∀ b, s.fb.read 0 = some b → b = Config.dataMarker
  /-- A sticky flag that is set has left its mark in the ghost bit (R158). -/
  recorded : s.rangeErr = true ∨ s.illegalErr = true → s.faultRecorded = true
  /-- Every frame emitted is 1025 bytes long and starts with the marker (R90, R91). -/
  framesWhole : ∀ f ∈ s.frames, f.length = Config.bufLen ∧ f.head? = some Config.dataMarker
  /-- A frame cut short by a reset is shorter than a frame (R172). -/
  cutFramesShort : ∀ f ∈ s.cutFrames, f.length < Config.bufLen
  /-- An idle engine has no frame in flight (R178). -/
  idleStream : s.engine = .idle → s.inFlight = []
  /-- While FRAME_OUT waits with byte `i` on offer, FB holds values, and the bytes taken are FB[0] to FB[i-1]
  (R28, R91, R178). -/
  busyStream : ∀ i, s.engine = .emitting i →
    i < Config.bufLen ∧ s.initialised ∧ s.inFlight.length = i ∧ ∀ j, j < i → s.fb.read j = s.inFlight[j]?

/-- The pixel at `(x, y)`: bit `y & 7` of cell `index(x, y)` (R44, R50), none where the cell holds no value. -/
def State.pixel (s : State) (x y : Int) : Option Bool :=
  (s.fb.read (cellIndex x y)).map fun c => c.getLsbD (cellBit x y)

/-- Every cell that a set of coordinates reaches inside the grid holds a value: what a drawing command needs in order
not to read a cell that holds none (R31, R46; log 2). -/
def State.readable (s : State) (P : Int → Int → Prop) : Prop :=
  ∀ x y, P x y → inGrid x y = true → s.holds (cellIndex x y)

/-- `t` is `s` after a drawing command that visits exactly the coordinates `P` with value `v`, in the set form of R108:
every visited pixel on the grid is `v`; every other pixel, FB[0] and whatever stands beyond the plane are as before;
RANGE_ERR, and with it the ghost bit (R158), is set exactly when it was set or a visited coordinate is off the grid; and
nothing else changes. -/
structure Drawn (s t : State) (P : Int → Int → Prop) (v : Bool) : Prop where
  visited : ∀ x y, inGrid x y = true → P x y → t.pixel x y = some v
  notVisited : ∀ x y, inGrid x y = true → ¬ P x y → t.pixel x y = s.pixel x y
  outsidePlane : ∀ i, i = 0 ∨ Config.bufLen ≤ i → t.fb.read i = s.fb.read i
  range : t.rangeErr = true ↔ s.rangeErr = true ∨ ∃ x y, P x y ∧ inGrid x y = false
  ghost : t.faultRecorded = true ↔ s.faultRecorded = true ∨ ∃ x y, P x y ∧ inGrid x y = false
  rest : t = { s with fb := t.fb, rangeErr := t.rangeErr, faultRecorded := t.faultRecorded }

/-- The coordinates a drawing command hands to PixelWrite, in order; none for INIT and FRAME_OUT (R183). -/
def drawnPoints : Instr → List Point
  | .init => []
  | .pixel x y _ => [⟨zext x, zext y⟩]
  | .fill _ => fillPoints
  | .hline x0 x1 y _ => hlinePoints (zext x0) (zext x1) (zext y)
  | .vline x y0 y1 _ => vlinePoints (zext x) (zext y0) (zext y1)
  | .line x0 y0 x1 y1 _ => linePoints (zext x0) (zext y0) (zext x1) (zext y1)
  | .rect t l w h _ => rectPoints (zext t) (zext l) (zext w) (zext h)
  | .star t l w h _ => starPoints (zext t) (zext l) (zext w) (zext h)
  | .heart t l w h _ => heartPoints (zext t) (zext l) (zext w) (zext h)
  | .square t l w h _ => squarePoints (zext t) (zext l) (zext w) (zext h)
  | .frameOut => []

/-- The anchors of the walk, as R120 describes them: the samples `left + k*S` below `left + w` on the top and bottom
edges, and `top + k*S` below `top + h` on the left and right edges. -/
def WalkAnchor (top left w h spacing q px py : Int) : Prop :=
  (∃ k : Nat, k * spacing < w ∧ px = left + k * spacing ∧ (py = top ∨ py = top + h - q)) ∨
    ∃ k : Nat, k * spacing < h ∧ py = top + k * spacing ∧ (px = left ∨ px = left + w - q)

/-- The plots of LINE as the loop of R104 reaches them, with no bound on its iterations: the current point and the error
term at each plot. -/
inductive LinePlots (x0 y0 x1 y1 : Int) : Int → Int → Int → Prop where
  | start : LinePlots x0 y0 x1 y1 x0 y0 ((x1 - x0).natAbs - (y1 - y0).natAbs)
  | step {cx cy err : Int} (h : LinePlots x0 y0 x1 y1 cx cy err) (more : ¬ (cx = x1 ∧ cy = y1)) :
    LinePlots x0 y0 x1 y1
      (if 2 * err > -((y1 - y0).natAbs : Int) then cx + (if x0 < x1 then 1 else -1) else cx)
      (if 2 * err < ((x1 - x0).natAbs : Int) then cy + (if y0 < y1 then 1 else -1) else cy)
      (err - (if 2 * err > -((y1 - y0).natAbs : Int) then ((y1 - y0).natAbs : Int) else 0) +
        (if 2 * err < ((x1 - x0).natAbs : Int) then ((x1 - x0).natAbs : Int) else 0))

/-- How many pixels of the plane are set. -/
def State.litCount (s : State) : Nat := (fillPoints.filter fun p => s.pixel p.x p.y == some true).length

/-- `t` is reached from `s` in some number of steps, none of which faults or is refused. -/
inductive Reaches (s : State) : State → Prop where
  | refl : Reaches s s
  | tail {t u : State} : Reaches s t → step t = .next u → Reaches s u

/-- A safe state: it steps to a next state, so it neither reads a cell that holds no value nor stops in any other way. -/
def State.steps (s : State) : Prop := ∃ t, step s = .next t

/-- Whether the host's next move is to assert reset (R170, R179). -/
def State.resetNext (s : State) : Bool :=
  match s.moves with
  | .reset :: _ => true
  | _ => false

/-- The state in which the engine takes its action of this step: after the host's move, where that is not reset. -/
def State.afterHost (s : State) : State :=
  match s.moves with
  | [] => s
  | m :: ms => hostMove m { s with moves := ms }

end Sys2Proof.Machine
end

