-- ==== Sys2Proof/Certificates/Slice0/Obligations.lean ====
section
/-! DEFINITION. The statements for the provers: what the numbered rules of spec/ say the block does. -/

open Sys2Proof Sys2Proof.Machine

/-! ## Encoding -/

/-- 30_encoding.md, the command word: no bit of a command is dropped on the way through its word. -/
def Obligations.DecodeOfEncode : Prop :=
  ∀ i : Instr, decode (encode i) = .ok i

/-- 30_encoding.md: a word has one meaning and no bit of a legal word is left unread. -/
def Obligations.EncodeOfDecode : Prop :=
  ∀ (w : CmdWord) (i : Instr), decode w = .ok i → encode i = w

/-- R64: a word selects the command of the first and only row that matches it, with the fields R64 names; the rows are
disjoint; a word that matches none is illegal. -/
def Obligations.OpcodeMapSelects : Prop :=
  ∀ w : CmdWord,
    (∀ r ∈ opcodeMap, ∀ r' ∈ opcodeMap, w &&& r.mask = r.pattern → w &&& r'.mask = r'.pattern → r = r') ∧
    ((∀ r ∈ opcodeMap, w &&& r.mask ≠ r.pattern) ↔ ∃ e, decode w = .error e) ∧
    (w &&& 0xFFFFFFFFFF = 0x1000000000 → decode w = .ok .init) ∧
    (w &&& 0xFE0000FFFF = 0x2000000000 →
      decode w = .ok (.pixel (w.extractLsb' 24 8) (w.extractLsb' 16 8) (w.getLsbD 32))) ∧
    (w &&& 0xFEFFFFFFFF = 0x3000000000 → decode w = .ok (.fill (w.getLsbD 32))) ∧
    (w &&& 0xFE000000FF = 0x4000000000 →
      decode w = .ok (.hline (w.extractLsb' 24 8) (w.extractLsb' 16 8) (w.extractLsb' 8 8) (w.getLsbD 32))) ∧
    (w &&& 0xFE000000FF = 0x5000000000 →
      decode w = .ok (.vline (w.extractLsb' 24 8) (w.extractLsb' 16 8) (w.extractLsb' 8 8) (w.getLsbD 32))) ∧
    (w &&& 0xFE00000000 = 0x6000000000 →
      decode w = .ok (.line (w.extractLsb' 24 8) (w.extractLsb' 16 8) (w.extractLsb' 8 8) (w.extractLsb' 0 8)
        (w.getLsbD 32))) ∧
    (w &&& 0xFE00000000 = 0x7000000000 →
      decode w = .ok (.rect (w.extractLsb' 24 8) (w.extractLsb' 16 8) (w.extractLsb' 8 8) (w.extractLsb' 0 8)
        (w.getLsbD 32))) ∧
    (w &&& 0xFE00000000 = 0x8000000000 →
      decode w = .ok (.star (w.extractLsb' 24 8) (w.extractLsb' 16 8) (w.extractLsb' 8 8) (w.extractLsb' 0 8)
        (w.getLsbD 32))) ∧
    (w &&& 0xFE00000000 = 0x9000000000 →
      decode w = .ok (.heart (w.extractLsb' 24 8) (w.extractLsb' 16 8) (w.extractLsb' 8 8) (w.extractLsb' 0 8)
        (w.getLsbD 32))) ∧
    (w &&& 0xFE00000000 = 0xA000000000 →
      decode w = .ok (.square (w.extractLsb' 24 8) (w.extractLsb' 16 8) (w.extractLsb' 8 8) (w.extractLsb' 0 8)
        (w.getLsbD 32))) ∧
    (w &&& 0xFFFFFFFFFF = 0xB000000000 → decode w = .ok .frameOut)

/-- R62: a legal word has RSV zero and zero in every field its format does not use, format by format. -/
def Obligations.UnusedFieldsZero : Prop :=
  ∀ (w : CmdWord) (i : Instr), decode w = .ok i →
    w.extractLsb' 33 3 = 0 ∧
    (i.opcode ∈ [Opcode.init, .frameOut] → w.getLsbD 32 = false ∧ w.extractLsb' 0 32 = 0) ∧
    (i.opcode = .fill → w.extractLsb' 0 32 = 0) ∧
    (i.opcode = .pixel → w.extractLsb' 0 16 = 0) ∧
    (i.opcode ∈ [Opcode.hline, .vline] → w.extractLsb' 0 8 = 0)

/-- R65 and R144: which words are illegal, and what the block does with one: it is consumed, ILLEGAL_ERR is set (and
with it the ghost bit of R158), and nothing else changes. -/
def Obligations.IllegalWordOnlyRaises : Prop :=
  ∀ (w : CmdWord) (ws : List CmdWord) (s : State),
    ((∃ e, decode w = .error e) ↔
      w.extractLsb' 36 4 ∈ [0x0#4, 0xC, 0xD, 0xE, 0xF] ∨ w.extractLsb' 33 3 ≠ 0 ∨
        ∃ o : Opcode, o.number = w.extractLsb' 36 4 ∧ CmdWord.unusedZero w o.format = false) ∧
    (s.resetNext = false → s.afterHost.engine = .idle → s.afterHost.words = w :: ws → (∃ e, decode w = .error e) →
      step s = .next { s.afterHost with words := ws, illegalErr := true, faultRecorded := true })

/-- 95_test_vectors.md 2.1: some of the words written out there. -/
def Obligations.SampleWordsDecode : Prop :=
  decode 0x1000000000 = .ok .init ∧
  decode 0x21FFFF0000 = .ok (.pixel 255 255 true) ∧
  decode 0x4102060900 = .ok (.hline 2 6 9 true) ∧
  decode 0x6100000703 = .ok (.line 0 0 7 3 true) ∧
  decode 0xA1141E0303 = .ok (.square 20 30 3 3 true) ∧
  decode 0xB000000000 = .ok .frameOut ∧
  decode 0x41020609FF = .error .unusedField ∧
  decode 0x6300000703 = .error .reservedBits ∧
  decode 0x0000000000 = .error .undefinedOpcode

/-- R69: PLAIN_RECT assembles to exactly the word of RECT, and a disassembler prints RECT. -/
def Obligations.PlainRectIsRect : Prop :=
  ∀ (top left width height : Int) (v : Bool),
    assemble (.plainRect top left width height v) = assemble (.rect top left width height v) ∧
    ∀ w, assemble (.plainRect top left width height v) = some w →
      disassemble w = some (.rect top left width height v)

/-- 30_encoding.md, assembler syntax: a line is rejected exactly when an operand is outside 0 to 255, and what the
disassembler prints for an assembled line is that line, RECT for PLAIN_RECT. -/
def Obligations.DisassembleOfAssemble : Prop :=
  ∀ l : Asm,
    (assemble l = none ↔ l.wf = false) ∧
    ∀ w, assemble l = some w →
      disassemble w = some (match l with
        | .plainRect t f w h v => .rect t f w h v
        | l => l)

/-! ## Reset, the sequencer and the ports -/

/-- R5 and R142: a parameter set is built exactly when it is well formed, and this instance is, with 8 pages and 1025
bytes. -/
def Obligations.GeometryRefusedUnlessWellFormed : Prop :=
  (∀ g : Geometry, g.build = none ↔
    ¬ (g.height % 8 = 0 ∧ g.height / 8 = 8 ∧ 1 ≤ g.width ∧ g.width ≤ 128)) ∧
  Config.geometry.build = some { width := 128, height := 64 } ∧
  Config.geometry.pages = 8 ∧ Config.geometry.bufLen = 1025

/-- 10_state.md section 5: the values the spec gives for reset. No cell of FB holds a value, STATUS is 0, a word can be
accepted, no byte is on offer. -/
def Obligations.ResetValues : Prop :=
  (∀ i, State.reset.fb.read i = none) ∧ State.reset.status = 0 ∧ cmdReady State.reset = true ∧
  foValid State.reset = false ∧ foData State.reset = none ∧ State.reset.inFlight = []

/-- The invariant holds after reset. -/
def Obligations.ResetInvariant : Prop :=
  State.reset.Inv

/-- The invariant is kept by every step, whatever the host does. -/
def Obligations.StepKeepsInvariant : Prop :=
  ∀ s t : State, s.Inv → step s = .next t → t.Inv

/-- 70_reset_and_hazards.md section 1, and R31 for FB: reset from any state. That the words on offer, the consumer, the
frames received and the ghost bit stay, and that a frame in flight is recorded as cut short, is the model's choice
(log 9, log 10). -/
def Obligations.ResetFromAnyState : Prop :=
  ∀ (s : State) (ms : List HostMove), s.moves = .reset :: ms →
    ∃ t, step s = .next t ∧
      (∀ i, t.fb.read i = none) ∧ t.status = 0 ∧ foValid t = false ∧ t.inFlight = [] ∧
      t.frames = s.frames ∧ (∀ i, s.engine = .emitting i → t.cutFrames = s.cutFrames ++ [s.inFlight]) ∧
      t.words = s.words ∧ t.consumer = s.consumer ∧ t.faultRecorded = s.faultRecorded ∧ t.moves = ms

/-- R26, R64, R176: when the engine is idle after the host's move and the word on the command port decodes, the step is
that command executed, its operands latched and the word taken off the port. -/
def Obligations.StepExecutesDecodedWord : Prop :=
  ∀ (s : State) (w : CmdWord) (ws : List CmdWord) (i : Instr),
    s.resetNext = false → s.afterHost.engine = .idle → s.afterHost.words = w :: ws → decode w = .ok i →
      step s = exec i { s.afterHost with
        words := ws
        latches := ⟨w.extractLsb' 24 8, w.extractLsb' 16 8, w.extractLsb' 8 8, w.extractLsb' 0 8, w.getLsbD 32⟩ }

/-- Log 7: a word of the opcode table that is placed with `withFetchWord` is what the very next step executes. -/
def Obligations.FetchWordRunsNext : Prop :=
  ∀ (s : State) (w : Nat) (i : Instr), decodeTableWord 40 w = some i →
    step (s.withFetchWord 40 w) =
      exec i (latch (BitVec.ofNat 40 (w % 2 ^ 40)) { s with engine := .idle, inFlight := [] })

/-- R156, R176, R184: with no word on the port the idle engine does nothing, and the host's move changes nothing of the
block. -/
def Obligations.IdleWithoutWordDoesNothing : Prop :=
  ∀ s : State, s.resetNext = false → s.afterHost.engine = .idle → s.afterHost.words = [] →
    step s = .next s.afterHost ∧ s.afterHost.fb = s.fb ∧ s.afterHost.status = s.status ∧
      s.afterHost.frames = s.frames

/-- 20_memory.md section 4 and 70_reset_and_hazards.md section 3: while a frame is being emitted no word is accepted
and FB does not change: no later command can change it. -/
def Obligations.NoCommandDuringFrame : Prop :=
  ∀ (s t : State) (i : Nat), s.resetNext = false → s.afterHost.engine = .emitting i → step s = .next t →
    cmdReady s.afterHost = false ∧ t.words = s.afterHost.words ∧ t.latches = s.latches ∧ t.fb = s.fb ∧
      t.rangeErr = s.rangeErr ∧ t.illegalErr = s.illegalErr

/-- R23, R177: the status register and the status outputs. -/
def Obligations.StatusBits : Prop :=
  ∀ s : State,
    (s.status.getLsbD 0 = true ↔ ∃ i, s.engine = .emitting i) ∧
    s.status.getLsbD 1 = s.rangeErr ∧ s.status.getLsbD 2 = s.illegalErr ∧
    (∀ b, 3 ≤ b → s.status.getLsbD b = false) ∧ cmdReady s = !s.status.getLsbD 0

/-- R178: the frame output port during FRAME_OUT and outside it. -/
def Obligations.FrameOutputPort : Prop :=
  ∀ s : State, s.Inv →
    (foValid s = true ↔ ∃ i, s.engine = .emitting i) ∧
    (∀ i, s.engine = .emitting i → i ≤ 1024 ∧ (∃ b, foData s = some b ∧ s.fb.read i = some b) ∧
      (foLast s = true ↔ i = 1024)) ∧
    (s.engine = .idle → foData s = none ∧ foLast s = false)

/-! ## Memory, the address decoder and the pixel packer -/

/-- 20_memory.md section 3, R44: the address decoder, its range and the worked values. Its form as a concatenation of
bits and that it is injective and onto are inferences the spec marks as its own, within R44. -/
def Obligations.AddressDecoder : Prop :=
  (∀ x y : Int, 0 ≤ x → x < 128 → 0 ≤ y → y < 64 →
    (cellIndex x y : Int) = y / 8 + 8 * x + 1 ∧ (cellBit x y : Int) = y % 8 ∧
    BitVec.ofNat 10 (cellIndex x y - 1) = BitVec.ofInt 7 x ++ (BitVec.ofInt 6 y).extractLsb' 3 3 ∧
    BitVec.ofNat 3 (cellBit x y) = (BitVec.ofInt 6 y).extractLsb' 0 3 ∧
    1 ≤ cellIndex x y ∧ cellIndex x y ≤ 1024 ∧ cellBit x y ≤ 7) ∧
  (∀ x y x' y' : Int, 0 ≤ x → x < 128 → 0 ≤ y → y < 64 → 0 ≤ x' → x' < 128 → 0 ≤ y' → y' < 64 →
    cellIndex x y = cellIndex x' y' → cellBit x y = cellBit x' y' → x = x' ∧ y = y') ∧
  (∀ i b : Nat, 1 ≤ i → i ≤ 1024 → b ≤ 7 →
    ∃ x y : Int, 0 ≤ x ∧ x < 128 ∧ 0 ≤ y ∧ y < 64 ∧ cellIndex x y = i ∧ cellBit x y = b) ∧
  (cellIndex 0 0 = 1 ∧ cellBit 0 0 = 0) ∧ (cellIndex 0 63 = 8 ∧ cellBit 0 63 = 7) ∧
  (cellIndex 1 0 = 9 ∧ cellBit 1 0 = 0) ∧ (cellIndex 5 10 = 42 ∧ cellBit 5 10 = 2) ∧
  (cellIndex 127 63 = 1024 ∧ cellBit 127 63 = 7)

/-- 20_memory.md section 3, R50 (an inference the spec marks as its own, from R44): the inverse map, and when a pixel
is set. -/
def Obligations.InverseAddressMap : Prop :=
  (∀ i b : Nat, 1 ≤ i → i ≤ 1024 → b ≤ 7 →
    inGrid (pixelX i) (pixelY i b) = true ∧ cellIndex (pixelX i) (pixelY i b) = i ∧
      cellBit (pixelX i) (pixelY i b) = b) ∧
  (∀ x y : Int, inGrid x y = true →
    pixelX (cellIndex x y) = x ∧ pixelY (cellIndex x y) (cellBit x y) = y) ∧
  ∀ (s : State) (i b : Nat), 1 ≤ i → i ≤ 1024 → b ≤ 7 →
    (s.pixel (pixelX i) (pixelY i b) = some true ↔ ∃ c, s.fb.read i = some c ∧ c.getLsbD b = true)

/-- R45: PixelWrite changes one bit of one cell inside the grid; the other seven bits and every other cell keep their
values; writing the value a pixel has changes nothing; outside the grid FB is unchanged and RangeError is raised. -/
def Obligations.PixelPacker : Prop :=
  ∀ (x y : Int) (v : Bool) (s : State),
    (inGrid x y = true → ∀ old, s.fb.read (cellIndex x y) = some old →
      ∃ t new, pixelWrite x y v s = .next t ∧ t = { s with fb := t.fb } ∧
        t.fb.read (cellIndex x y) = some new ∧
        new = (if v then old ||| 1#8 <<< cellBit x y else old &&& ~~~ (1#8 <<< cellBit x y)) ∧
        new.getLsbD (cellBit x y) = v ∧ (∀ b, b < 8 → b ≠ cellBit x y → new.getLsbD b = old.getLsbD b) ∧
        (∀ i, i ≠ cellIndex x y → t.fb.read i = s.fb.read i) ∧
        (old.getLsbD (cellBit x y) = v → ∀ i, t.fb.read i = s.fb.read i)) ∧
    (¬ (0 ≤ x ∧ x < 128 ∧ 0 ≤ y ∧ y < 64) →
      pixelWrite x y v s = .next { s with rangeErr := true, faultRecorded := true })

/-- R46: outside the grid PixelWrite makes no memory access, whatever FB holds, sets RANGE_ERR, and the command goes on
with its next pixel; the test is made before any truncation. -/
def Obligations.RangeGuardGoesOn : Prop :=
  ∀ (x y : Int) (v : Bool) (ps : List Point) (s : State), x < 0 ∨ x ≥ 128 ∨ y < 0 ∨ y ≥ 64 →
    drawPoints (⟨x, y⟩ :: ps) v s = drawPoints ps v { s with rangeErr := true, faultRecorded := true }

/-- 10_state.md section 5, R31, and 20_memory.md section 3, R46: a drawing command faults exactly when it reaches a cell
that holds no value, and otherwise completes; FRAME_OUT faults on an FB that holds no values. That a drawing command
which reaches no such cell completes before INIT too is the model's reading (log 2): V28, R80 and R173 speak of any
command other than INIT. -/
def Obligations.FaultsExactlyOnUnwrittenCells : Prop :=
  (∀ (i : Instr) (s : State), i ≠ .init → i ≠ .frameOut →
    ((∃ p ∈ drawnPoints i, inGrid p.x p.y = true ∧ s.fb.read (cellIndex p.x p.y) = none) →
      ∃ p ∈ drawnPoints i, inGrid p.x p.y = true ∧ s.fb.read (cellIndex p.x p.y) = none ∧
        exec i s = .fault (.uninitialisedRead (cellIndex p.x p.y))) ∧
    ((∀ p ∈ drawnPoints i, inGrid p.x p.y = true → s.holds (cellIndex p.x p.y)) → ∃ t, exec i s = .next t)) ∧
  ∀ s : State, s.fb.read 0 = none → exec .frameOut s = .fault (.uninitialisedRead 0)

/-- R43, R65 and the outcomes of this model: no step is refused and no step computes an FB index outside 0 to 1024. -/
def Obligations.OnlyUnwrittenCellsStopAStep : Prop :=
  ∀ s : State, (∃ t, step s = .next t) ∨ ∃ k, k < 1025 ∧ step s = .fault (.uninitialisedRead k)

/-- R31, last sentence: once every cell has a value nothing faults any more, until the next reset. -/
def Obligations.InitialisedBufferNeverFaults : Prop :=
  ∀ s : State, s.Inv → s.initialised → ∃ t, step s = .next t ∧ (s.resetNext = false → t.initialised)

/-- 20_memory.md section 3, R47 (an inference the spec marks as its own, from R44): PixelWrite neither writes nor reads
FB[0]; only INIT writes it and only FRAME_OUT reads it. -/
def Obligations.MarkerCellUntouched : Prop :=
  (∀ (i : Instr) (s t : State), i ≠ .init → exec i s = .next t → t.fb.read 0 = s.fb.read 0) ∧
  (∀ (x y : Int) (v : Bool) (s t : State), pixelWrite x y v s = .next t → t.fb.read 0 = s.fb.read 0) ∧
  ∀ (i : Instr) (s : State) (m : Memory), i ≠ .frameOut → (∀ k, k ≠ 0 → m.read k = s.fb.read k) →
    (∀ t, exec i s = .next t →
      ∃ m' : Memory, exec i { s with fb := m } = .next { t with fb := m' } ∧
        ∀ k, k ≠ 0 → m'.read k = t.fb.read k) ∧
    (∀ e, exec i s = .fault e → exec i { s with fb := m } = .fault e)

/-- 42_rasterizer.md section 4, R108 (an inference the spec marks as its own, from R45): every drawing command hands the
coordinates of `drawnPoints` to PixelWrite with its own V, and the state after a drawing depends only on the set of
coordinates it visits, and what it is. -/
def Obligations.DrawingDependsOnSetOnly : Prop :=
  (∀ (i : Instr) (s : State), i ≠ .init → i ≠ .frameOut →
    exec i s = drawPoints (drawnPoints i) ((encode i).getLsbD 32) s) ∧
  ∀ (ps qs : List Point) (v : Bool) (s t : State), s.fb.wf = true → (∀ p, p ∈ ps ↔ p ∈ qs) →
    drawPoints ps v s = .next t →
      drawPoints qs v s = .next t ∧ Drawn s t (fun x y => (⟨x, y⟩ : Point) ∈ ps) v

/-! ## Framebuffer commands -/

/-- R80: INIT, from every state. -/
def Obligations.InitResult : Prop :=
  encode .init = 0x1000000000 ∧
  ∀ s : State, ∃ t, exec .init s = .next t ∧
    t.fb.read 0 = some Config.dataMarker ∧ (∀ i, 1 ≤ i → i ≤ 1024 → t.fb.read i = some 0) ∧
    (∀ i, 1024 < i → t.fb.read i = s.fb.read i) ∧
    t = { s with fb := t.fb, rangeErr := false, illegalErr := false }

/-- R81: PIXEL. -/
def Obligations.PixelResult : Prop :=
  ∀ (x y : Byte) (v : Bool),
    encode (.pixel x y v) =
      0x2000000000#40 ||| ((BitVec.ofBool v).setWidth 40 <<< 32) ||| (x.setWidth 40 <<< 24) |||
        (y.setWidth 40 <<< 16) ∧
    ∀ s : State, s.readable (fun px py => px = x.toNat ∧ py = y.toNat) →
      ∃ t, exec (.pixel x y v) s = .next t ∧ Drawn s t (fun px py => px = x.toNat ∧ py = y.toNat) v

/-- 40_framebuffer.md, R82: FILL, and that it stops on an FB that holds no values. That the plane is then all ones or all
zeros is an inference the spec marks as its own, from R44; that the fault names cell 1 rests on the order of the pixels,
which is the model's (log 12), where R82 says only that FILL faults. -/
def Obligations.FillResult : Prop :=
  ∀ v : Bool,
    encode (.fill v) = 0x3000000000#40 ||| ((BitVec.ofBool v).setWidth 40 <<< 32) ∧
    (drawnPoints (.fill v)).length = 8192 ∧
    (∀ s : State, s.readable (fun _ _ => True) →
      ∃ t, exec (.fill v) s = .next t ∧ Drawn s t (fun px py => inGrid px py = true) v ∧
        (∀ i, 1 ≤ i → i ≤ 1024 → t.fb.read i = some (if v then 0xFF else 0x00)) ∧
        t.fb.read 0 = s.fb.read 0 ∧ t = { s with fb := t.fb }) ∧
    ∀ s : State, (∀ i, s.fb.read i = none) → exec (.fill v) s = .fault (.uninitialisedRead 1)

/-- 40_framebuffer.md, R83 (an inference the spec marks as its own, from R45): the round-trip law of PIXEL. -/
def Obligations.PixelRoundTrip : Prop :=
  ∀ (x y : Byte) (s : State), x.toNat < 128 → y.toNat < 64 → s.holds (cellIndex x.toNat y.toNat) →
    ∃ t u, exec (.pixel x y true) s = .next t ∧ exec (.pixel x y false) t = .next u ∧
      u.pixel x.toNat y.toNat = some false ∧
      (∀ i b, i ≠ cellIndex x.toNat y.toNat ∨ b ≠ cellBit x.toNat y.toNat →
        (u.fb.read i).map (fun c => c.getLsbD b) = (s.fb.read i).map (fun c => c.getLsbD b)) ∧
      (s.pixel x.toNat y.toNat = some false → ∀ i, u.fb.read i = s.fb.read i) ∧ u = { s with fb := u.fb }

/-- 40_framebuffer.md, R84 (an inference the spec marks as its own, from R82): the clear law: FILL 1 and then FILL 0
leave exactly the FB that INIT leaves. -/
def Obligations.FillClearsToInit : Prop :=
  ∀ s : State, s.Inv → s.initialised →
    ∃ t u i, exec (.fill true) s = .next t ∧ exec (.fill false) t = .next u ∧ exec .init s = .next i ∧
      u.fb = i.fb ∧ u.fb.read 0 = some Config.dataMarker ∧ ∀ k, 1 ≤ k → k ≤ 1024 → u.fb.read k = some 0

/-! ## Rasteriser commands -/

/-- R102: HLINE, empty when `x0 > x1`. -/
def Obligations.HlineResult : Prop :=
  ∀ (x0 x1 y : Byte) (v : Bool),
    encode (.hline x0 x1 y v) =
      0x4000000000#40 ||| ((BitVec.ofBool v).setWidth 40 <<< 32) ||| (x0.setWidth 40 <<< 24) |||
        (x1.setWidth 40 <<< 16) ||| (y.setWidth 40 <<< 8) ∧
    (drawnPoints (.hline x0 x1 y v)).length = x1.toNat + 1 - x0.toNat ∧
    ∀ s : State, s.readable (fun px py => (x0.toNat : Int) ≤ px ∧ px ≤ x1.toNat ∧ py = y.toNat) →
      ∃ t, exec (.hline x0 x1 y v) s = .next t ∧
        Drawn s t (fun px py => (x0.toNat : Int) ≤ px ∧ px ≤ x1.toNat ∧ py = y.toNat) v ∧
        (x1.toNat < x0.toNat → t = s)

/-- R103: VLINE, empty when `y0 > y1`. -/
def Obligations.VlineResult : Prop :=
  ∀ (x y0 y1 : Byte) (v : Bool),
    encode (.vline x y0 y1 v) =
      0x5000000000#40 ||| ((BitVec.ofBool v).setWidth 40 <<< 32) ||| (x.setWidth 40 <<< 24) |||
        (y0.setWidth 40 <<< 16) ||| (y1.setWidth 40 <<< 8) ∧
    (drawnPoints (.vline x y0 y1 v)).length = y1.toNat + 1 - y0.toNat ∧
    ∀ s : State, s.readable (fun px py => px = x.toNat ∧ (y0.toNat : Int) ≤ py ∧ py ≤ y1.toNat) →
      ∃ t, exec (.vline x y0 y1 v) s = .next t ∧
        Drawn s t (fun px py => px = x.toNat ∧ (y0.toNat : Int) ≤ py ∧ py ≤ y1.toNat) v ∧
        (y1.toNat < y0.toNat → t = s)

/-- 42_rasterizer.md section 3, R104: LINE draws exactly the points its loop plots, here as the relation LinePlots, which
has no bound on the iterations. How the loop updates its error term is what R104 marks as from general knowledge
(93_implementation_defined.md G2, log 16). -/
def Obligations.LineResult : Prop :=
  ∀ (x0 y0 x1 y1 : Byte) (v : Bool),
    encode (.line x0 y0 x1 y1 v) =
      0x6000000000#40 ||| ((BitVec.ofBool v).setWidth 40 <<< 32) ||| (x0.setWidth 40 <<< 24) |||
        (y0.setWidth 40 <<< 16) ||| (x1.setWidth 40 <<< 8) ||| y1.setWidth 40 ∧
    ∀ s : State, s.readable (fun px py => ∃ err, LinePlots x0.toNat y0.toNat x1.toNat y1.toNat px py err) →
      ∃ t, exec (.line x0 y0 x1 y1 v) s = .next t ∧
        Drawn s t (fun px py => ∃ err, LinePlots x0.toNat y0.toNat x1.toNat y1.toNat px py err) v

/-- 42_rasterizer.md section 3, R105 (an inference the spec marks as its own, from R104): the step sign on a zero delta
never affects the plots, and why: the axis never moves and the error term stays as it starts. How the loop updates its
error term is from general knowledge (93_implementation_defined.md G2, log 16). -/
def Obligations.LineSignOnZeroDelta : Prop :=
  ∀ (x0 y0 x1 y1 : Byte) (sgn : Int) (fuel : Nat),
    let p := lineParams x0.toNat y0.toNat x1.toNat y1.toNat
    let w := lineStart x0.toNat y0.toNat x1.toNat y1.toNat
    (x0 = x1 → lineTrace { p with sx := sgn } fuel w = lineTrace p fuel w ∧
      ∀ k ∈ lineTrace p fuel w, k.cx = x0.toNat ∧ k.err = -p.dy) ∧
    (y0 = y1 → lineTrace { p with sy := sgn } fuel w = lineTrace p fuel w ∧
      ∀ k ∈ lineTrace p fuel w, k.cy = y0.toNat ∧ k.err = p.dx)

/-- 42_rasterizer.md section 3, R106 (an inference the spec marks as its own, by enumeration of R104): LINE plots exactly
`max(dx, dy) + 1` distinct points from the first endpoint to the second, one step of one or both axes at a time and
always in the same direction, inside the bounding box, with the error term bounded; with both endpoints in the grid it
raises no error, and it sets that many pixels where they were clear. How the loop of R104 updates its error term is from
general knowledge (93_implementation_defined.md G2, log 16). -/
def Obligations.LineTerminates : Prop :=
  ∀ x0 y0 x1 y1 : Byte,
    let ws := lineWorks x0.toNat y0.toNat x1.toNat y1.toNat
    let ps := linePoints x0.toNat y0.toNat x1.toNat y1.toNat
    ps.length = max ((x1.toNat : Int) - x0.toNat).natAbs ((y1.toNat : Int) - y0.toNat).natAbs + 1 ∧
    ps.head? = some ⟨x0.toNat, y0.toNat⟩ ∧ ps.getLast? = some ⟨x1.toNat, y1.toNat⟩ ∧ ps.Nodup ∧
    (∀ (k : Nat) (p q : Point), ps[k]? = some p → ps[k + 1]? = some q →
      (q.x = p.x ∨ q.x = p.x + (if x0.toNat < x1.toNat then 1 else -1)) ∧
      (q.y = p.y ∨ q.y = p.y + (if y0.toNat < y1.toNat then 1 else -1))) ∧
    (∀ p ∈ ps, (min x0.toNat x1.toNat : Int) ≤ p.x ∧ p.x ≤ (max x0.toNat x1.toNat : Int) ∧
      (min y0.toNat y1.toNat : Int) ≤ p.y ∧ p.y ≤ (max y0.toNat y1.toNat : Int)) ∧
    (∀ w ∈ ws, w.err.natAbs ≤ 381 ∧ (2 * w.err).natAbs ≤ 762) ∧
    (x0.toNat < 128 → y0.toNat < 64 → x1.toNat < 128 → y1.toNat < 64 →
      (∀ (v : Bool) (s t : State), exec (.line x0 y0 x1 y1 v) s = .next t → t.rangeErr = s.rangeErr) ∧
      ∀ s t : State, (∀ p ∈ ps, s.pixel p.x p.y = some false) → exec (.line x0 y0 x1 y1 true) s = .next t →
        t.litCount = s.litCount + (max ((x1.toNat : Int) - x0.toNat).natAbs ((y1.toNat : Int) - y0.toNat).natAbs + 1))

/-- R100: RECT, with its literal reading of the sizes 0. -/
def Obligations.RectResult : Prop :=
  ∀ (top left width height : Byte) (v : Bool),
    let P := fun px py : Int =>
      ((left.toNat : Int) ≤ px ∧ px < left.toNat + width.toNat ∧
        (py = top.toNat ∨ py = (top.toNat : Int) + height.toNat - 1)) ∨
      ((top.toNat : Int) ≤ py ∧ py < top.toNat + height.toNat ∧
        (px = left.toNat ∨ px = (left.toNat : Int) + width.toNat - 1))
    encode (.rect top left width height v) =
      0x7000000000#40 ||| ((BitVec.ofBool v).setWidth 40 <<< 32) ||| (top.setWidth 40 <<< 24) |||
        (left.setWidth 40 <<< 16) ||| (width.setWidth 40 <<< 8) ||| height.setWidth 40 ∧
    (drawnPoints (.rect top left width height v)).length = 2 * width.toNat + 2 * height.toNat ∧
    ∀ s : State, s.readable P → ∃ t, exec (.rect top left width height v) s = .next t ∧ Drawn s t P v

/-- 42_rasterizer.md section 1, R101 (an inference the spec marks as its own, from R100): how many pixels an outline
sets, where they were all in the grid and clear, and by how many PixelWrite calls. -/
def Obligations.OutlinePixelCount : Prop :=
  ∀ (top left width height : Byte) (s : State),
    (∀ p ∈ drawnPoints (.rect top left width height true), inGrid p.x p.y = true ∧ s.pixel p.x p.y = some false) →
    (drawnPoints (.rect top left width height true)).length = 2 * width.toNat + 2 * height.toNat ∧
    ∃ t, exec (.rect top left width height true) s = .next t ∧
      (1 ≤ width.toNat → 1 ≤ height.toNat →
        t.litCount = s.litCount + (width.toNat * height.toNat - (width.toNat - 2) * (height.toNat - 2))) ∧
      (2 ≤ width.toNat → 2 ≤ height.toNat → t.litCount + 4 = s.litCount + 2 * (width.toNat + height.toNat)) ∧
      (width.toNat = 0 → t.litCount = s.litCount + 2 * height.toNat) ∧
      (height.toNat = 0 → t.litCount = s.litCount + 2 * width.toNat)

/-! ## Stamp commands -/

/-- R120: the walk: `ceil(w/S)` samples along x in pairs and then `ceil(h/S)` along y in pairs. -/
def Obligations.WalkSamples : Prop :=
  ∀ (top left : Int) (w h spacing : Nat) (q : Int) (stamp : Int → Int → List Point), 1 ≤ spacing → 1 ≤ q →
    walkPoints top left w h spacing q stamp =
      ((List.range ((w + spacing - 1) / spacing)).flatMap fun (k : Nat) =>
        stamp (left + k * spacing) top ++ stamp (left + k * spacing) (top + h - q)) ++
      (List.range ((h + spacing - 1) / spacing)).flatMap fun (k : Nat) =>
        stamp left (top + k * spacing) ++ stamp (left + w - q) (top + k * spacing)

/-- 43_stamps.md section 2, R128 (an inference the spec marks as its own, from R100 and R120): RectOutline visits the
same coordinates in the same order as the walk with spacing 1, offset 1 and a one-pixel stamp. -/
def Obligations.RectOutlineIsUnitWalk : Prop :=
  ∀ top left w h : Int, rectPoints top left w h = walkPoints top left w h 1 1 dotStamp

/-- 43_stamps.md section 1, R121 (an inference the spec marks as its own): the bounds of the anchors and of every
coordinate handed to PixelWrite. -/
def Obligations.CoordinateBounds : Prop :=
  (∀ (top left width height : Byte) (p : Point),
    (p ∈ walkPoints (zext top) (zext left) (zext width) (zext height) 5 1 dotStamp ∨
      p ∈ walkPoints (zext top) (zext left) (zext width) (zext height) 6 1 dotStamp ∨
      p ∈ walkPoints (zext top) (zext left) (zext width) (zext height) 4 3 dotStamp) →
      -3 ≤ p.x ∧ p.x ≤ 509 ∧ -3 ≤ p.y ∧ p.y ≤ 509) ∧
  ∀ (i : Instr), ∀ p ∈ drawnPoints i, -3 ≤ p.x ∧ p.x ≤ 511 ∧ -3 ≤ p.y ∧ p.y ≤ 511

/-- R122, R123: STAR: plus patterns every 5 pixels. -/
def Obligations.StarResult : Prop :=
  ∀ (top left width height : Byte) (v : Bool),
    let P := fun x y : Int => ∃ px py, WalkAnchor top.toNat left.toNat width.toNat height.toNat 5 1 px py ∧
      ((x = px ∧ y = py) ∨ (x = px ∧ y = py - 1) ∨ (x = px ∧ y = py + 1) ∨ (x = px - 1 ∧ y = py) ∨
        (x = px + 1 ∧ y = py))
    encode (.star top left width height v) =
      0x8000000000#40 ||| ((BitVec.ofBool v).setWidth 40 <<< 32) ||| (top.setWidth 40 <<< 24) |||
        (left.setWidth 40 <<< 16) ||| (width.setWidth 40 <<< 8) ||| height.setWidth 40 ∧
    (drawnPoints (.star top left width height v)).length =
      5 * (2 * ((width.toNat + 4) / 5) + 2 * ((height.toNat + 4) / 5)) ∧
    ∀ s : State, s.readable P → ∃ t, exec (.star top left width height v) s = .next t ∧ Drawn s t P v

/-- R124, R125: HEART: heart patterns every 6 pixels, never rotated. -/
def Obligations.HeartResult : Prop :=
  ∀ (top left width height : Byte) (v : Bool),
    let P := fun x y : Int => ∃ px py, WalkAnchor top.toNat left.toNat width.toNat height.toNat 6 1 px py ∧
      ((x = px ∧ y = py) ∨ (x = px - 1 ∧ y = py - 1) ∨ (x = px + 1 ∧ y = py - 1) ∨ (x = px - 2 ∧ y = py) ∨
        (x = px + 2 ∧ y = py) ∨ (x = px - 1 ∧ y = py + 1) ∨ (x = px + 1 ∧ y = py + 1) ∨ (x = px ∧ y = py + 2))
    encode (.heart top left width height v) =
      0x9000000000#40 ||| ((BitVec.ofBool v).setWidth 40 <<< 32) ||| (top.setWidth 40 <<< 24) |||
        (left.setWidth 40 <<< 16) ||| (width.setWidth 40 <<< 8) ||| height.setWidth 40 ∧
    (drawnPoints (.heart top left width height v)).length =
      8 * (2 * ((width.toNat + 5) / 6) + 2 * ((height.toNat + 5) / 6)) ∧
    ∀ s : State, s.readable P → ∃ t, exec (.heart top left width height v) s = .next t ∧ Drawn s t P v

/-- R126, R127: SQUARE: outlines of 3×3 squares every 4 pixels, anchored at their top-left corner, the far edges offset
by 3, the centre not written. -/
def Obligations.SquareResult : Prop :=
  ∀ (top left width height : Byte) (v : Bool),
    let P := fun x y : Int => ∃ px py, WalkAnchor top.toNat left.toNat width.toNat height.toNat 4 3 px py ∧
      px ≤ x ∧ x ≤ px + 2 ∧ py ≤ y ∧ y ≤ py + 2 ∧ ¬ (x = px + 1 ∧ y = py + 1)
    encode (.square top left width height v) =
      0xA000000000#40 ||| ((BitVec.ofBool v).setWidth 40 <<< 32) ||| (top.setWidth 40 <<< 24) |||
        (left.setWidth 40 <<< 16) ||| (width.setWidth 40 <<< 8) ||| height.setWidth 40 ∧
    (drawnPoints (.square top left width height v)).length =
      12 * (2 * ((width.toNat + 3) / 4) + 2 * ((height.toNat + 3) / 4)) ∧
    ∀ s : State, s.readable P → ∃ t, exec (.square top left width height v) s = .next t ∧ Drawn s t P v

/-- 70_reset_and_hazards.md R180 item 5: the margins within which a stamped border leaves RANGE_ERR as it was. -/
def Obligations.StampMarginsKeepRangeErr : Prop :=
  ∀ (top left width height : Byte) (v : Bool) (s t : State),
    1 ≤ width.toNat → 1 ≤ height.toNat →
    (1 ≤ left.toNat → 1 ≤ top.toNat → left.toNat + width.toNat ≤ 127 → top.toNat + height.toNat ≤ 63 →
      exec (.star top left width height v) s = .next t → t.rangeErr = s.rangeErr) ∧
    (2 ≤ left.toNat → 1 ≤ top.toNat → left.toNat + width.toNat ≤ 126 → top.toNat + height.toNat ≤ 62 →
      exec (.heart top left width height v) s = .next t → t.rangeErr = s.rangeErr) ∧
    (3 ≤ width.toNat → 3 ≤ height.toNat → width.toNat % 4 ∈ [0, 3] → height.toNat % 4 ∈ [0, 3] →
      left.toNat + width.toNat ≤ 128 → top.toNat + height.toNat ≤ 64 →
      exec (.square top left width height v) s = .next t → t.rangeErr = s.rangeErr)

/-! ## Frame read-out -/

/-- R91: FRAME_OUT on an initialised FB, to a consumer that takes the frame: the 1025 bytes FB[0] to FB[1024] in index
order are one frame more, and nothing else of the block changes. To a consumer that does not, it stays busy and no frame
is emitted; on an FB that holds no values it stops. -/
def Obligations.FrameOutResult : Prop :=
  encode .frameOut = 0xB000000000 ∧
  (∀ s : State, s.engine = .idle → s.inFlight = [] → s.initialised → s.consumer.takes 1025 = true →
    ∃ bs : List Byte, bs.length = 1025 ∧ (∀ i, i < 1025 → s.fb.read i = bs[i]?) ∧
      exec .frameOut s = .next { s with frames := s.frames ++ [bs], consumer := s.consumer.after 1025 }) ∧
  (∀ s : State, s.initialised → s.consumer.takes 1025 = false →
    ∃ t, exec .frameOut s = .next t ∧ t.status.getLsbD 0 = true ∧ t.frames = s.frames ∧ t.fb = s.fb) ∧
  ∀ s : State, s.fb.read 0 = none → exec .frameOut s = .fault (.uninitialisedRead 0)

/-- 60_exceptions.md section 4: a consumer that takes `n` bytes and no more leaves FRAME_OUT waiting with byte `n` on
offer, the engine busy and no frame emitted, and there it stays, step after step. -/
def Obligations.FrameOutWaitsForConsumer : Prop :=
  ∀ (s : State) (n : Nat), n < 1025 → s.initialised → s.consumer = .upTo n →
    ∃ t, exec .frameOut s = .next t ∧ t.engine = .emitting n ∧ t.status.getLsbD 0 = true ∧
      foData t = s.fb.read n ∧ t.inFlight.length = n ∧ (∀ i, i < n → s.fb.read i = t.inFlight[i]?) ∧
      t.frames = s.frames ∧ t.fb = s.fb ∧ (t.moves = [] → step t = .next t)

/-- 41_frame_output.md section 1: a frame is the same however its consumer paces it: FRAME_OUT stopped after `n` bytes
and resumed ends in the state that FRAME_OUT without a stop ends in. -/
def Obligations.PausedFrameIsWholeFrame : Prop :=
  ∀ (s t u : State) (n : Nat), n < 1025 → s.moves = [] → s.initialised →
    exec .frameOut { s with consumer := .upTo n } = .next t →
    exec .frameOut { s with consumer := .always } = .next u →
      t.engine = .emitting n ∧ step { t with moves := [.consume .always] } = .next u

/-! ## Errors and flags -/

/-- R149, R25, with R143's stickiness: no command but INIT clears a flag, INIT clears both, none but an illegal word
sets ILLEGAL_ERR, and FILL and FRAME_OUT never set RANGE_ERR. -/
def Obligations.CommandsAndFlags : Prop :=
  ∀ (i : Instr) (s t : State), exec i s = .next t →
    (i = .init → t.rangeErr = false ∧ t.illegalErr = false) ∧
    (i ≠ .init → t.illegalErr = s.illegalErr ∧ (s.rangeErr = true → t.rangeErr = true)) ∧
    ((i = .frameOut ∨ ∃ v, i = .fill v) → t.rangeErr = s.rangeErr)

/-- R149: whatever happens in a step, a flag is cleared only by reset or by INIT, and a flag is cleared only together
with the other. -/
def Obligations.FlagsClearedOnlyByResetOrInit : Prop :=
  ∀ s t : State, step s = .next t →
    (s.rangeErr = true ∧ t.rangeErr = false) ∨ (s.illegalErr = true ∧ t.illegalErr = false) →
      t.rangeErr = false ∧ t.illegalErr = false ∧
        (s.resetNext = true ∨ ∃ w ws, s.afterHost.engine = .idle ∧ s.afterHost.words = w :: ws ∧ decode w = .ok .init)

/-- R147: one word never raises both errors. -/
def Obligations.OneWordOneCause : Prop :=
  ∀ s t : State, step s = .next t →
    ¬ (s.rangeErr = false ∧ t.rangeErr = true ∧ s.illegalErr = false ∧ t.illegalErr = true) ∧
    (∀ w ws e, s.resetNext = false → s.afterHost.engine = .idle → s.afterHost.words = w :: ws → decode w = .error e →
      t.rangeErr = s.rangeErr) ∧
    (∀ w ws i, s.resetNext = false → s.afterHost.engine = .idle → s.afterHost.words = w :: ws → decode w = .ok i →
      t.illegalErr = true → s.illegalErr = true)

/-- 60_exceptions.md section 3, R158 (an inference the spec marks as its own; that reset does not clear it is the
model's, log 10): the ghost bit is set whenever a flag is set, and no step clears it. -/
def Obligations.GhostBitNeverCleared : Prop :=
  ∀ s t : State, step s = .next t →
    (s.faultRecorded = true → t.faultRecorded = true) ∧
    (s.rangeErr = false → t.rangeErr = true → t.faultRecorded = true) ∧
    (s.illegalErr = false → t.illegalErr = true → t.faultRecorded = true)

/-- 10_state.md section 2: no command reads a flag: with other flags it does the same to FB, to the stream and to the
engine, and stops on the same cell. -/
def Obligations.NoCommandReadsAFlag : Prop :=
  ∀ (i : Instr) (s : State) (r l g : Bool),
    (∀ t, exec i s = .next t →
      ∃ t', exec i { s with rangeErr := r, illegalErr := l, faultRecorded := g } = .next t' ∧
        t' = { t with rangeErr := t'.rangeErr, illegalErr := t'.illegalErr, faultRecorded := t'.faultRecorded }) ∧
    (∀ e, exec i s = .fault e →
      exec i { s with rangeErr := r, illegalErr := l, faultRecorded := g } = .fault e)

/-! ## Frames of the commands -/

/-- What PIXEL, FILL, HLINE, VLINE, LINE, RECT, STAR, HEART and SQUARE leave unchanged, whenever they give a next state:
every cell but those of the pixels they write, ILLEGAL_ERR, the engine, the latches, the stream, the ports; RANGE_ERR is
the only flag they write, and they only set it. -/
def Obligations.DrawingFrame : Prop :=
  ∀ (i : Instr) (s t : State), i ≠ .init → i ≠ .frameOut → exec i s = .next t →
    (∀ k, (∀ p ∈ drawnPoints i, inGrid p.x p.y = true → k ≠ cellIndex p.x p.y) → t.fb.read k = s.fb.read k) ∧
    (s.rangeErr = true → t.rangeErr = true) ∧ t.illegalErr = s.illegalErr ∧ t.engine = s.engine ∧
    t.latches = s.latches ∧ t.inFlight = s.inFlight ∧ t.frames = s.frames ∧ t.cutFrames = s.cutFrames ∧
    t.words = s.words ∧ t.consumer = s.consumer ∧ t.moves = s.moves

/-- What INIT and FRAME_OUT leave unchanged whenever they give a next state: INIT all but FB and the two flags,
FRAME_OUT all of FB, both flags and the latches, and all but the stream, the consumer and the engine. -/
def Obligations.InitAndFrameOutFrame : Prop :=
  (∀ s t : State, exec .init s = .next t →
    (∀ k, 1024 < k → t.fb.read k = s.fb.read k) ∧
    t = { s with fb := t.fb, rangeErr := t.rangeErr, illegalErr := t.illegalErr }) ∧
  ∀ s t : State, exec .frameOut s = .next t →
    t = { s with frames := t.frames, inFlight := t.inFlight, consumer := t.consumer, engine := t.engine }
end

