-- ==== Sys2Proof/Laws/Cells.lean ====
section
/-! SUPPORT. The address decoder and the pixel packer in plain arithmetic: the grid test, the bounds and injectivity of
`cellIndex` and `cellBit`, and the bits of a packed cell. -/

namespace Sys2Proof.Machine

theorem inGrid_iff {x y : Int} : inGrid x y = true ↔ 0 ≤ x ∧ x < 128 ∧ 0 ≤ y ∧ y < 64 := by
  simp [inGrid, and_assoc]

theorem inGrid_false_iff {x y : Int} : inGrid x y = false ↔ x < 0 ∨ 128 ≤ x ∨ y < 0 ∨ 64 ≤ y := by
  rw [← Bool.not_eq_true, inGrid_iff]
  omega

theorem cellIndex_eq (x y : Int) : cellIndex x y = y.toNat / 8 + x.toNat * 8 + 1 := by
  simp [cellIndex, Nat.shiftRight_eq_div_pow, Nat.shiftLeft_eq]

theorem cellBit_eq (x y : Int) : cellBit x y = y.toNat % 8 := Nat.and_two_pow_sub_one_eq_mod y.toNat 3

theorem cellBit_lt (x y : Int) : cellBit x y < 8 := by
  rw [cellBit_eq]
  omega

theorem cellIndex_pos (x y : Int) : 0 < cellIndex x y := by
  rw [cellIndex_eq]
  omega

theorem cellIndex_lt {x y : Int} (h : inGrid x y = true) : cellIndex x y < Config.bufLen := by
  obtain ⟨h1, h2, h3, h4⟩ := inGrid_iff.1 h
  rw [cellIndex_eq]
  change _ < 1025
  omega

/-- Two grid points with the same cell and the same bit are the same point (R44). -/
theorem cell_injective {x y x' y' : Int} (h : inGrid x y = true) (h' : inGrid x' y' = true)
    (hi : cellIndex x y = cellIndex x' y') (hb : cellBit x y = cellBit x' y') : x = x' ∧ y = y' := by
  obtain ⟨h1, h2, h3, h4⟩ := inGrid_iff.1 h
  obtain ⟨g1, g2, g3, g4⟩ := inGrid_iff.1 h'
  rw [cellIndex_eq, cellIndex_eq] at hi
  rw [cellBit_eq, cellBit_eq] at hb
  omega

/-- Bit `j` of a packed cell: `v` where it is the pixel's bit, the old bit elsewhere (R45). -/
theorem packBit_getLsbD (old : Byte) {b j : Nat} (v : Bool) (hj : j < 8) :
    (packBit old b v).getLsbD j = if j = b then v else old.getLsbD j := by
  rcases Nat.lt_trichotomy j b with h | h | h
  · cases v <;> simp [packBit, hj, h, Nat.ne_of_lt h]
  · subst h
    cases v <;> simp [packBit, hj]
  · have h1 : ¬ j < b := by omega
    have h2 : j - b ≠ 0 := by omega
    have h3 : j ≠ b := by omega
    cases v <;> simp [packBit, hj, h1, h2, h3]

theorem mem_upto {a b k : Int} : k ∈ upto a b ↔ a ≤ k ∧ k ≤ b := by
  simp only [upto, List.mem_map, List.mem_range]
  constructor
  · rintro ⟨n, hn, rfl⟩
    omega
  · rintro ⟨h1, h2⟩
    exact ⟨(k - a).toNat, by omega, by omega⟩

@[simp] theorem length_upto (a b : Int) : (upto a b).length = (b - a + 1).toNat := by
  simp [upto]

end Sys2Proof.Machine
end

