-- ==== Sys2Proof/Laws/Memory.lean ====
section
/-! SUPPORT. The laws of FB as data: read after write, the canonical form is kept, and canonical memories that read the
same are equal. -/

namespace Sys2Proof.Machine

@[simp] theorem Memory.read_nil (i : Nat) : Memory.read [] i = none := rfl

@[simp] theorem Memory.read_cons (a : Nat) (b : Byte) (m : Memory) (i : Nat) :
    Memory.read ((a, b) :: m) i = if a = i then some b else Memory.read m i := rfl

@[simp] theorem Memory.read_write_same (m : Memory) (i : Nat) (v : Byte) : (m.write i v).read i = some v := by
  induction m with
  | nil => simp [Memory.write]
  | cons c m ih =>
    obtain ⟨a, b⟩ := c
    by_cases h1 : i < a
    · simp [Memory.write, h1]
    · by_cases h2 : i = a
      · simp [Memory.write, h2]
      · simpa [Memory.write, h1, h2, Ne.symm h2] using ih

theorem Memory.read_write_other (m : Memory) {i j : Nat} (v : Byte) (h : i ≠ j) :
    (m.write i v).read j = m.read j := by
  induction m with
  | nil => simp [Memory.write, h]
  | cons c m ih =>
    obtain ⟨a, b⟩ := c
    by_cases h1 : i < a
    · simp [Memory.write, h1, h]
    · by_cases h2 : i = a
      · subst h2
        simp [Memory.write, h]
      · simp [Memory.write, h1, h2, ih]

theorem Memory.read_write (m : Memory) (i j : Nat) (v : Byte) :
    (m.write i v).read j = if i = j then some v else m.read j := by
  by_cases h : i = j
  · simp [h]
  · simp [h, Memory.read_write_other m v h]

@[simp] theorem Memory.wf_nil : Memory.wf [] = true := rfl

theorem Memory.wf_cons {a : Nat} {b : Byte} {m : Memory} :
    Memory.wf ((a, b) :: m) = true ↔ a < Config.bufLen ∧ (∀ c ∈ m, a < c.1) ∧ Memory.wf m = true := by
  simp [Memory.wf, and_assoc]

/-- A cell that is listed after a write is the one written or was listed before. -/
theorem Memory.mem_write {m : Memory} {i : Nat} {v : Byte} {c : Host.Cell} (h : c ∈ m.write i v) :
    c = (i, v) ∨ c ∈ m := by
  induction m with
  | nil => simpa [Memory.write] using h
  | cons d m ih =>
    obtain ⟨a, b⟩ := d
    unfold Memory.write at h
    split at h
    · simpa using h
    · split at h
      · simp at h
        rcases h with h | h <;> simp [h]
      · simp at h
        rcases h with h | h
        · simp [h]
        · rcases ih h with h | h <;> simp [h]

/-- A write inside FB keeps the canonical form. -/
theorem Memory.write_wf {m : Memory} {i : Nat} {v : Byte} (hm : m.wf = true) (hi : i < Config.bufLen) :
    (m.write i v).wf = true := by
  induction m with
  | nil => simp [Memory.write, Memory.wf_cons, hi]
  | cons c m ih =>
    obtain ⟨a, b⟩ := c
    obtain ⟨ha, hlt, hm'⟩ := Memory.wf_cons.1 hm
    unfold Memory.write
    split
    · rename_i h1
      refine Memory.wf_cons.2 ⟨hi, ?_, hm⟩
      intro c hc
      rcases List.mem_cons.1 hc with rfl | hc
      · exact h1
      · exact Nat.lt_trans h1 (hlt c hc)
    · split
      · rename_i h2
        subst h2
        exact Memory.wf_cons.2 ⟨hi, hlt, hm'⟩
      · rename_i h1 h2
        refine Memory.wf_cons.2 ⟨ha, ?_, ih hm'⟩
        intro c hc
        rcases Memory.mem_write hc with rfl | hc
        · change a < i
          omega
        · exact hlt c hc

/-- A cell of a canonical memory that reads as a value is inside FB (R40). -/
theorem Memory.read_lt {m : Memory} (hm : m.wf = true) {i : Nat} {b : Byte} (h : m.read i = some b) :
    i < Config.bufLen := by
  induction m with
  | nil => simp at h
  | cons c m ih =>
    obtain ⟨a, d⟩ := c
    obtain ⟨ha, -, hm'⟩ := Memory.wf_cons.1 hm
    rw [Memory.read_cons] at h
    split at h
    · rename_i hai
      exact hai ▸ ha
    · exact ih hm' h

theorem Memory.read_none_of_lt {m : Memory} {i : Nat} (h : ∀ c ∈ m, i < c.1) : m.read i = none := by
  induction m with
  | nil => rfl
  | cons c m ih =>
    obtain ⟨a, b⟩ := c
    have ha : i < a := h (a, b) (by simp)
    rw [Memory.read_cons, if_neg (by omega)]
    exact ih fun c hc => h c (by simp [hc])

/-- Canonical memories that read the same are the same list. -/
theorem Memory.ext_read {m n : Memory} (hm : m.wf = true) (hn : n.wf = true) (h : ∀ i, m.read i = n.read i) :
    m = n := by
  induction m generalizing n with
  | nil =>
    cases n with
    | nil => rfl
    | cons d n =>
      obtain ⟨a, b⟩ := d
      have := h a
      simp at this
  | cons c m ih =>
    obtain ⟨a, b⟩ := c
    obtain ⟨ha, hlt, hm'⟩ := Memory.wf_cons.1 hm
    cases n with
    | nil =>
      have := h a
      simp at this
    | cons d n =>
      obtain ⟨a', b'⟩ := d
      obtain ⟨ha', hlt', hn'⟩ := Memory.wf_cons.1 hn
      have hne : ∀ {x y : Nat} {w : Memory}, x < y → (∀ c ∈ w, y < c.1) → Memory.read w x = none :=
        fun hxy hw => Memory.read_none_of_lt fun c hc => Nat.lt_trans hxy (hw c hc)
      have haa : a = a' := by
        rcases Nat.lt_trichotomy a a' with hl | he | hl
        · have := h a
          rw [Memory.read_cons, if_pos rfl, Memory.read_cons, if_neg (by omega), hne hl hlt'] at this
          cases this
        · exact he
        · have := h a'
          rw [Memory.read_cons, Memory.read_cons, if_pos rfl, if_neg (by omega), hne hl hlt] at this
          cases this
      subst haa
      have hb : b = b' := by
        have := h a
        simpa using this
      subst hb
      congr 1
      refine ih hm' hn' fun i => ?_
      by_cases hi : a = i
      · subst hi
        rw [Memory.read_none_of_lt hlt, Memory.read_none_of_lt hlt']
      · have := h i
        rwa [Memory.read_cons, Memory.read_cons, if_neg hi, if_neg hi] at this

end Sys2Proof.Machine
end

