-- ==== Sys2Proof/Laws/State.lean ====
section
/-! SUPPORT. One lemma for each field and each named update of State, true by unfolding the update once. -/

namespace Sys2Proof.Machine


section raise_range

@[simp] theorem raise_range_fb (s : State) : (raise .rangeError s).fb = s.fb := rfl
@[simp] theorem raise_range_rangeErr (s : State) : (raise .rangeError s).rangeErr = true := rfl
@[simp] theorem raise_range_illegalErr (s : State) : (raise .rangeError s).illegalErr = s.illegalErr := rfl
@[simp] theorem raise_range_engine (s : State) : (raise .rangeError s).engine = s.engine := rfl
@[simp] theorem raise_range_latches (s : State) : (raise .rangeError s).latches = s.latches := rfl
@[simp] theorem raise_range_inFlight (s : State) : (raise .rangeError s).inFlight = s.inFlight := rfl
@[simp] theorem raise_range_frames (s : State) : (raise .rangeError s).frames = s.frames := rfl
@[simp] theorem raise_range_cutFrames (s : State) : (raise .rangeError s).cutFrames = s.cutFrames := rfl
@[simp] theorem raise_range_faultRecorded (s : State) : (raise .rangeError s).faultRecorded = true := rfl
@[simp] theorem raise_range_words (s : State) : (raise .rangeError s).words = s.words := rfl
@[simp] theorem raise_range_consumer (s : State) : (raise .rangeError s).consumer = s.consumer := rfl
@[simp] theorem raise_range_moves (s : State) : (raise .rangeError s).moves = s.moves := rfl

end raise_range

section raise_illegal

@[simp] theorem raise_illegal_fb (s : State) : (raise .illegalCommand s).fb = s.fb := rfl
@[simp] theorem raise_illegal_rangeErr (s : State) : (raise .illegalCommand s).rangeErr = s.rangeErr := rfl
@[simp] theorem raise_illegal_illegalErr (s : State) : (raise .illegalCommand s).illegalErr = true := rfl
@[simp] theorem raise_illegal_engine (s : State) : (raise .illegalCommand s).engine = s.engine := rfl
@[simp] theorem raise_illegal_latches (s : State) : (raise .illegalCommand s).latches = s.latches := rfl
@[simp] theorem raise_illegal_inFlight (s : State) : (raise .illegalCommand s).inFlight = s.inFlight := rfl
@[simp] theorem raise_illegal_frames (s : State) : (raise .illegalCommand s).frames = s.frames := rfl
@[simp] theorem raise_illegal_cutFrames (s : State) : (raise .illegalCommand s).cutFrames = s.cutFrames := rfl
@[simp] theorem raise_illegal_faultRecorded (s : State) : (raise .illegalCommand s).faultRecorded = true := rfl
@[simp] theorem raise_illegal_words (s : State) : (raise .illegalCommand s).words = s.words := rfl
@[simp] theorem raise_illegal_consumer (s : State) : (raise .illegalCommand s).consumer = s.consumer := rfl
@[simp] theorem raise_illegal_moves (s : State) : (raise .illegalCommand s).moves = s.moves := rfl

end raise_illegal

section clearErrors

@[simp] theorem clearErrors_fb (s : State) : (clearErrors s).fb = s.fb := rfl
@[simp] theorem clearErrors_rangeErr (s : State) : (clearErrors s).rangeErr = false := rfl
@[simp] theorem clearErrors_illegalErr (s : State) : (clearErrors s).illegalErr = false := rfl
@[simp] theorem clearErrors_engine (s : State) : (clearErrors s).engine = s.engine := rfl
@[simp] theorem clearErrors_latches (s : State) : (clearErrors s).latches = s.latches := rfl
@[simp] theorem clearErrors_inFlight (s : State) : (clearErrors s).inFlight = s.inFlight := rfl
@[simp] theorem clearErrors_frames (s : State) : (clearErrors s).frames = s.frames := rfl
@[simp] theorem clearErrors_cutFrames (s : State) : (clearErrors s).cutFrames = s.cutFrames := rfl
@[simp] theorem clearErrors_faultRecorded (s : State) : (clearErrors s).faultRecorded = s.faultRecorded := rfl
@[simp] theorem clearErrors_words (s : State) : (clearErrors s).words = s.words := rfl
@[simp] theorem clearErrors_consumer (s : State) : (clearErrors s).consumer = s.consumer := rfl
@[simp] theorem clearErrors_moves (s : State) : (clearErrors s).moves = s.moves := rfl

end clearErrors

section emit

@[simp] theorem emit_fb (b : Byte) (c : Consumer) (s : State) : (emit b c s).fb = s.fb := rfl
@[simp] theorem emit_rangeErr (b : Byte) (c : Consumer) (s : State) : (emit b c s).rangeErr = s.rangeErr := rfl
@[simp] theorem emit_illegalErr (b : Byte) (c : Consumer) (s : State) : (emit b c s).illegalErr = s.illegalErr := rfl
@[simp] theorem emit_engine (b : Byte) (c : Consumer) (s : State) : (emit b c s).engine = s.engine := rfl
@[simp] theorem emit_latches (b : Byte) (c : Consumer) (s : State) : (emit b c s).latches = s.latches := rfl
@[simp] theorem emit_inFlight (b : Byte) (c : Consumer) (s : State) : (emit b c s).inFlight = s.inFlight ++ [b] := rfl
@[simp] theorem emit_frames (b : Byte) (c : Consumer) (s : State) : (emit b c s).frames = s.frames := rfl
@[simp] theorem emit_cutFrames (b : Byte) (c : Consumer) (s : State) : (emit b c s).cutFrames = s.cutFrames := rfl
@[simp] theorem emit_faultRecorded (b : Byte) (c : Consumer) (s : State) : (emit b c s).faultRecorded = s.faultRecorded := rfl
@[simp] theorem emit_words (b : Byte) (c : Consumer) (s : State) : (emit b c s).words = s.words := rfl
@[simp] theorem emit_consumer (b : Byte) (c : Consumer) (s : State) : (emit b c s).consumer = c := rfl
@[simp] theorem emit_moves (b : Byte) (c : Consumer) (s : State) : (emit b c s).moves = s.moves := rfl

end emit

section endFrame

@[simp] theorem endFrame_fb (s : State) : (endFrame s).fb = s.fb := rfl
@[simp] theorem endFrame_rangeErr (s : State) : (endFrame s).rangeErr = s.rangeErr := rfl
@[simp] theorem endFrame_illegalErr (s : State) : (endFrame s).illegalErr = s.illegalErr := rfl
@[simp] theorem endFrame_engine (s : State) : (endFrame s).engine = .idle := rfl
@[simp] theorem endFrame_latches (s : State) : (endFrame s).latches = s.latches := rfl
@[simp] theorem endFrame_inFlight (s : State) : (endFrame s).inFlight = [] := rfl
@[simp] theorem endFrame_frames (s : State) : (endFrame s).frames = s.frames ++ [s.inFlight] := rfl
@[simp] theorem endFrame_cutFrames (s : State) : (endFrame s).cutFrames = s.cutFrames := rfl
@[simp] theorem endFrame_faultRecorded (s : State) : (endFrame s).faultRecorded = s.faultRecorded := rfl
@[simp] theorem endFrame_words (s : State) : (endFrame s).words = s.words := rfl
@[simp] theorem endFrame_consumer (s : State) : (endFrame s).consumer = s.consumer := rfl
@[simp] theorem endFrame_moves (s : State) : (endFrame s).moves = s.moves := rfl

end endFrame

section latch

@[simp] theorem latch_fb (w : CmdWord) (s : State) : (latch w s).fb = s.fb := rfl
@[simp] theorem latch_rangeErr (w : CmdWord) (s : State) : (latch w s).rangeErr = s.rangeErr := rfl
@[simp] theorem latch_illegalErr (w : CmdWord) (s : State) : (latch w s).illegalErr = s.illegalErr := rfl
@[simp] theorem latch_engine (w : CmdWord) (s : State) : (latch w s).engine = s.engine := rfl
@[simp] theorem latch_latches (w : CmdWord) (s : State) : (latch w s).latches = ⟨CmdWord.a w, CmdWord.b w, CmdWord.c w, CmdWord.d w, CmdWord.v w⟩ := rfl
@[simp] theorem latch_inFlight (w : CmdWord) (s : State) : (latch w s).inFlight = s.inFlight := rfl
@[simp] theorem latch_frames (w : CmdWord) (s : State) : (latch w s).frames = s.frames := rfl
@[simp] theorem latch_cutFrames (w : CmdWord) (s : State) : (latch w s).cutFrames = s.cutFrames := rfl
@[simp] theorem latch_faultRecorded (w : CmdWord) (s : State) : (latch w s).faultRecorded = s.faultRecorded := rfl
@[simp] theorem latch_words (w : CmdWord) (s : State) : (latch w s).words = s.words := rfl
@[simp] theorem latch_consumer (w : CmdWord) (s : State) : (latch w s).consumer = s.consumer := rfl
@[simp] theorem latch_moves (w : CmdWord) (s : State) : (latch w s).moves = s.moves := rfl

end latch

section resetBlock

@[simp] theorem resetBlock_fb (s : State) : (resetBlock s).fb = [] := rfl
@[simp] theorem resetBlock_rangeErr (s : State) : (resetBlock s).rangeErr = false := rfl
@[simp] theorem resetBlock_illegalErr (s : State) : (resetBlock s).illegalErr = false := rfl
@[simp] theorem resetBlock_engine (s : State) : (resetBlock s).engine = .idle := rfl
@[simp] theorem resetBlock_latches (s : State) : (resetBlock s).latches = ⟨0, 0, 0, 0, false⟩ := rfl
@[simp] theorem resetBlock_inFlight (s : State) : (resetBlock s).inFlight = [] := rfl
@[simp] theorem resetBlock_frames (s : State) : (resetBlock s).frames = s.frames := rfl
@[simp] theorem resetBlock_cutFrames (s : State) : (resetBlock s).cutFrames = match s.engine with
      | .idle => s.cutFrames
      | .emitting _ => s.cutFrames ++ [s.inFlight] := rfl
@[simp] theorem resetBlock_faultRecorded (s : State) : (resetBlock s).faultRecorded = s.faultRecorded := rfl
@[simp] theorem resetBlock_words (s : State) : (resetBlock s).words = s.words := rfl
@[simp] theorem resetBlock_consumer (s : State) : (resetBlock s).consumer = s.consumer := rfl
@[simp] theorem resetBlock_moves (s : State) : (resetBlock s).moves = s.moves := rfl

end resetBlock

section offerNext

@[simp] theorem offerNext_fb (w : CmdWord) (s : State) : (offerNext w s).fb = s.fb := rfl
@[simp] theorem offerNext_rangeErr (w : CmdWord) (s : State) : (offerNext w s).rangeErr = s.rangeErr := rfl
@[simp] theorem offerNext_illegalErr (w : CmdWord) (s : State) : (offerNext w s).illegalErr = s.illegalErr := rfl
@[simp] theorem offerNext_engine (w : CmdWord) (s : State) : (offerNext w s).engine = .idle := rfl
@[simp] theorem offerNext_latches (w : CmdWord) (s : State) : (offerNext w s).latches = s.latches := rfl
@[simp] theorem offerNext_inFlight (w : CmdWord) (s : State) : (offerNext w s).inFlight = [] := rfl
@[simp] theorem offerNext_frames (w : CmdWord) (s : State) : (offerNext w s).frames = s.frames := rfl
@[simp] theorem offerNext_cutFrames (w : CmdWord) (s : State) : (offerNext w s).cutFrames = s.cutFrames := rfl
@[simp] theorem offerNext_faultRecorded (w : CmdWord) (s : State) : (offerNext w s).faultRecorded = s.faultRecorded := rfl
@[simp] theorem offerNext_words (w : CmdWord) (s : State) : (offerNext w s).words = w :: s.words := rfl
@[simp] theorem offerNext_consumer (w : CmdWord) (s : State) : (offerNext w s).consumer = s.consumer := rfl
@[simp] theorem offerNext_moves (w : CmdWord) (s : State) : (offerNext w s).moves = .readStatus :: s.moves := rfl

end offerNext

section hostMove_issue

@[simp] theorem hostMove_issue_fb (w : CmdWord) (s : State) : (hostMove (.issue w) s).fb = s.fb := rfl
@[simp] theorem hostMove_issue_rangeErr (w : CmdWord) (s : State) : (hostMove (.issue w) s).rangeErr = s.rangeErr := rfl
@[simp] theorem hostMove_issue_illegalErr (w : CmdWord) (s : State) : (hostMove (.issue w) s).illegalErr = s.illegalErr := rfl
@[simp] theorem hostMove_issue_engine (w : CmdWord) (s : State) : (hostMove (.issue w) s).engine = s.engine := rfl
@[simp] theorem hostMove_issue_latches (w : CmdWord) (s : State) : (hostMove (.issue w) s).latches = s.latches := rfl
@[simp] theorem hostMove_issue_inFlight (w : CmdWord) (s : State) : (hostMove (.issue w) s).inFlight = s.inFlight := rfl
@[simp] theorem hostMove_issue_frames (w : CmdWord) (s : State) : (hostMove (.issue w) s).frames = s.frames := rfl
@[simp] theorem hostMove_issue_cutFrames (w : CmdWord) (s : State) : (hostMove (.issue w) s).cutFrames = s.cutFrames := rfl
@[simp] theorem hostMove_issue_faultRecorded (w : CmdWord) (s : State) : (hostMove (.issue w) s).faultRecorded = s.faultRecorded := rfl
@[simp] theorem hostMove_issue_words (w : CmdWord) (s : State) : (hostMove (.issue w) s).words = s.words ++ [w] := rfl
@[simp] theorem hostMove_issue_consumer (w : CmdWord) (s : State) : (hostMove (.issue w) s).consumer = s.consumer := rfl
@[simp] theorem hostMove_issue_moves (w : CmdWord) (s : State) : (hostMove (.issue w) s).moves = s.moves := rfl

end hostMove_issue

section hostMove_consume

@[simp] theorem hostMove_consume_fb (c : Consumer) (s : State) : (hostMove (.consume c) s).fb = s.fb := rfl
@[simp] theorem hostMove_consume_rangeErr (c : Consumer) (s : State) : (hostMove (.consume c) s).rangeErr = s.rangeErr := rfl
@[simp] theorem hostMove_consume_illegalErr (c : Consumer) (s : State) : (hostMove (.consume c) s).illegalErr = s.illegalErr := rfl
@[simp] theorem hostMove_consume_engine (c : Consumer) (s : State) : (hostMove (.consume c) s).engine = s.engine := rfl
@[simp] theorem hostMove_consume_latches (c : Consumer) (s : State) : (hostMove (.consume c) s).latches = s.latches := rfl
@[simp] theorem hostMove_consume_inFlight (c : Consumer) (s : State) : (hostMove (.consume c) s).inFlight = s.inFlight := rfl
@[simp] theorem hostMove_consume_frames (c : Consumer) (s : State) : (hostMove (.consume c) s).frames = s.frames := rfl
@[simp] theorem hostMove_consume_cutFrames (c : Consumer) (s : State) : (hostMove (.consume c) s).cutFrames = s.cutFrames := rfl
@[simp] theorem hostMove_consume_faultRecorded (c : Consumer) (s : State) : (hostMove (.consume c) s).faultRecorded = s.faultRecorded := rfl
@[simp] theorem hostMove_consume_words (c : Consumer) (s : State) : (hostMove (.consume c) s).words = s.words := rfl
@[simp] theorem hostMove_consume_consumer (c : Consumer) (s : State) : (hostMove (.consume c) s).consumer = c := rfl
@[simp] theorem hostMove_consume_moves (c : Consumer) (s : State) : (hostMove (.consume c) s).moves = s.moves := rfl

end hostMove_consume

@[simp] theorem hostMove_readStatus (s : State) : hostMove .readStatus s = s := rfl

@[simp] theorem hostMove_reset (s : State) : hostMove .reset s = s := rfl

end Sys2Proof.Machine
end

