-- ==== Sys2Proof/Laws/Ops.lean ====
section
/-! SUPPORT. Everything the shared operations can do, said once: MemRead, MemWrite, sequencing, PixelWrite and drawing a
list of pixels. -/

namespace Sys2Proof.Machine

theorem memRead_ok_iff {i : Nat} {s : State} {b : Byte} :
    memRead i s = .ok b ↔ i < Config.bufLen ∧ s.fb.read i = some b := by
  unfold memRead
  split
  · cases h : s.fb.read i <;> simp [*]
  · simp [*]

theorem memRead_error_iff {i : Nat} {s : State} {e : Fault} (hi : i < Config.bufLen) :
    memRead i s = .error e ↔ s.fb.read i = none ∧ e = .uninitialisedRead i := by
  unfold memRead
  rw [if_pos hi]
  cases h : s.fb.read i <;> simp [eq_comm]

theorem memWrite_of_lt {i : Nat} (b : Byte) (s : State) (hi : i < Config.bufLen) :
    memWrite i b s = .next { s with fb := s.fb.write i b } := if_pos hi

@[simp] theorem andThen_next (s : State) (f : State → Result) : andThen (.next s) f = f s := rfl

theorem andThen_eq_next {r : Result} {f : State → Result} {t : State} :
    andThen r f = .next t ↔ ∃ s, r = .next s ∧ f s = .next t := by
  cases r <;> simp [andThen]

@[simp] theorem forEach_nil {α : Type} (f : α → State → Result) (s : State) : forEach f [] s = .next s := rfl

theorem forEach_cons_next {α : Type} {f : α → State → Result} {a : α} {as : List α} {s t : State} :
    forEach f (a :: as) s = .next t ↔ ∃ u, f a s = .next u ∧ forEach f as u = .next t := andThen_eq_next

/-- PixelWrite inside the grid, on a cell that holds a value (R45). -/
theorem pixelWrite_inGrid {x y : Int} {v : Bool} {s : State} {old : Byte} (h : inGrid x y = true)
    (ho : s.fb.read (cellIndex x y) = some old) :
    pixelWrite x y v s = .next { s with fb := s.fb.write (cellIndex x y) (packBit old (cellBit x y) v) } := by
  unfold pixelWrite
  rw [if_pos h, memRead_ok_iff.2 ⟨cellIndex_lt h, ho⟩]
  exact memWrite_of_lt _ _ (cellIndex_lt h)

/-- PixelWrite outside the grid (R46). -/
theorem pixelWrite_outGrid {x y : Int} {v : Bool} {s : State} (h : inGrid x y = false) :
    pixelWrite x y v s = .next (raise .rangeError s) := by
  unfold pixelWrite
  rw [h]
  rfl

/-- PixelWrite inside the grid, on a cell that holds no value (R31). -/
theorem pixelWrite_unwritten {x y : Int} {v : Bool} {s : State} (h : inGrid x y = true)
    (ho : s.fb.read (cellIndex x y) = none) :
    pixelWrite x y v s = .fault (.uninitialisedRead (cellIndex x y)) := by
  unfold pixelWrite
  rw [if_pos h, (memRead_error_iff (cellIndex_lt h)).2 ⟨ho, rfl⟩]

/-- Everything PixelWrite can do when it answers a next state. -/
theorem pixelWrite_cases {x y : Int} {v : Bool} {s t : State} (h : pixelWrite x y v s = .next t) :
    (inGrid x y = true ∧ ∃ old, s.fb.read (cellIndex x y) = some old ∧
      t = { s with fb := s.fb.write (cellIndex x y) (packBit old (cellBit x y) v) }) ∨
    (inGrid x y = false ∧ t = raise .rangeError s) := by
  cases hg : inGrid x y
  · rw [pixelWrite_outGrid hg] at h
    exact .inr ⟨rfl, by cases h; rfl⟩
  · cases ho : s.fb.read (cellIndex x y) with
    | none =>
      rw [pixelWrite_unwritten hg ho] at h
      cases h
    | some old =>
      rw [pixelWrite_inGrid hg ho] at h
      exact .inl ⟨rfl, old, rfl, by cases h; rfl⟩

/-- No visit changes nothing. -/
theorem Drawn.refl (s : State) (v : Bool) : Drawn s s (fun _ _ => False) v where
  visited := fun _ _ _ h => h.elim
  notVisited := fun _ _ _ _ => rfl
  outsidePlane := fun _ _ => rfl
  range := by simp
  ghost := by simp
  rest := rfl

/-- Drawings with the same value compose: the sets of visited coordinates are united (R108). -/
theorem Drawn.trans {s t u : State} {P Q : Int → Int → Prop} {v : Bool} (h : Drawn s t P v) (k : Drawn t u Q v) :
    Drawn s u (fun x y => P x y ∨ Q x y) v where
  visited := fun x y hg hp => by
    by_cases hq : Q x y
    · exact k.visited x y hg hq
    · rw [k.notVisited x y hg hq]
      exact h.visited x y hg (hp.resolve_right hq)
  notVisited := fun x y hg hn => by
    rw [k.notVisited x y hg fun hq => hn (.inr hq), h.notVisited x y hg fun hp => hn (.inl hp)]
  outsidePlane := fun i hi => by rw [k.outsidePlane i hi, h.outsidePlane i hi]
  range := by
    rw [k.range, h.range]
    constructor
    · rintro ((h | ⟨x, y, h, h'⟩) | ⟨x, y, h, h'⟩)
      · exact .inl h
      · exact .inr ⟨x, y, .inl h, h'⟩
      · exact .inr ⟨x, y, .inr h, h'⟩
    · rintro (h | ⟨x, y, h | h, h'⟩)
      · exact .inl (.inl h)
      · exact .inl (.inr ⟨x, y, h, h'⟩)
      · exact .inr ⟨x, y, h, h'⟩
  ghost := by
    rw [k.ghost, h.ghost]
    constructor
    · rintro ((h | ⟨x, y, h, h'⟩) | ⟨x, y, h, h'⟩)
      · exact .inl h
      · exact .inr ⟨x, y, .inl h, h'⟩
      · exact .inr ⟨x, y, .inr h, h'⟩
    · rintro (h | ⟨x, y, h | h, h'⟩)
      · exact .inl (.inl h)
      · exact .inl (.inr ⟨x, y, h, h'⟩)
      · exact .inr ⟨x, y, h, h'⟩
  rest := by
    rw [k.rest, h.rest]

/-- The set of visited coordinates may be said in another way. -/
theorem Drawn.congr {s t : State} {P Q : Int → Int → Prop} {v : Bool} (h : Drawn s t P v)
    (hPQ : ∀ x y, P x y ↔ Q x y) : Drawn s t Q v := by
  have : P = Q := funext fun x => funext fun y => propext (hPQ x y)
  exact this ▸ h

/-- PixelWrite is the drawing of one coordinate pair. -/
theorem pixelWrite_drawn {x y : Int} {v : Bool} {s t : State} (h : pixelWrite x y v s = .next t) :
    Drawn s t (fun x' y' => x' = x ∧ y' = y) v := by
  rcases pixelWrite_cases h with ⟨hg, old, ho, rfl⟩ | ⟨hg, rfl⟩
  · constructor
    · rintro _ _ - ⟨rfl, rfl⟩
      simp [State.pixel, packBit_getLsbD old v (cellBit_lt _ _)]
    · intro x' y' hg' hne
      unfold State.pixel
      by_cases hi : cellIndex x y = cellIndex x' y'
      · have hb : cellBit x' y' ≠ cellBit x y := fun hb => hne (cell_injective hg' hg hi.symm hb)
        simp [← hi, ho, packBit_getLsbD old v (cellBit_lt _ _), hb]
      · simp [Memory.read_write_other _ _ hi]
    · intro i hi
      have h1 := cellIndex_pos x y
      have h2 := cellIndex_lt hg
      exact Memory.read_write_other _ _ (by omega)
    · constructor
      · exact .inl
      · rintro (h | ⟨_, _, ⟨rfl, rfl⟩, h'⟩)
        · exact h
        · simp [hg] at h'
    · constructor
      · exact .inl
      · rintro (h | ⟨_, _, ⟨rfl, rfl⟩, h'⟩)
        · exact h
        · simp [hg] at h'
    · rfl
  · constructor
    · rintro _ _ hg' ⟨rfl, rfl⟩
      simp [hg] at hg'
    · intro x' y' _ _
      rfl
    · intro i _
      rfl
    · simp [hg]
    · simp [hg]
    · rfl

/-- Everything a drawing can do when it answers a next state: the set form of R108 for the points of the list. -/
theorem drawPoints_drawn {ps : List Point} {v : Bool} {s t : State} (h : drawPoints ps v s = .next t) :
    Drawn s t (fun x y => (⟨x, y⟩ : Point) ∈ ps) v := by
  induction ps generalizing s with
  | nil =>
    cases h
    exact (Drawn.refl _ v).congr (by simp)
  | cons p ps ih =>
    obtain ⟨u, h1, h2⟩ := forEach_cons_next.1 h
    refine ((pixelWrite_drawn h1).trans (ih h2)).congr fun x y => ?_
    cases p
    simp

/-- PixelWrite gives no cell a value that held none, and takes none away. -/
theorem pixelWrite_holds {x y : Int} {v : Bool} {s t : State} (h : pixelWrite x y v s = .next t) (i : Nat) :
    t.holds i ↔ s.holds i := by
  rcases pixelWrite_cases h with ⟨-, old, ho, rfl⟩ | ⟨-, rfl⟩
  · simp only [State.holds, Memory.read_write]
    split
    · rename_i hi
      subst hi
      simp [ho]
    · rfl
  · rfl

theorem drawPoints_holds {ps : List Point} {v : Bool} {s t : State} (h : drawPoints ps v s = .next t) (i : Nat) :
    t.holds i ↔ s.holds i := by
  induction ps generalizing s with
  | nil =>
    cases h
    rfl
  | cons p ps ih =>
    obtain ⟨u, h1, h2⟩ := forEach_cons_next.1 h
    rw [ih h2, pixelWrite_holds h1]

/-- A drawing keeps the canonical form of FB. -/
theorem drawPoints_wf {ps : List Point} {v : Bool} {s t : State} (h : drawPoints ps v s = .next t)
    (hs : s.fb.wf = true) : t.fb.wf = true := by
  induction ps generalizing s with
  | nil =>
    cases h
    exact hs
  | cons p ps ih =>
    obtain ⟨u, h1, h2⟩ := forEach_cons_next.1 h
    refine ih h2 ?_
    rcases pixelWrite_cases h1 with ⟨hg, old, -, rfl⟩ | ⟨-, rfl⟩
    · exact Memory.write_wf hs (cellIndex_lt hg)
    · exact hs

/-- A drawing changes no cell but those of its points inside the grid. -/
theorem drawPoints_cells {ps : List Point} {v : Bool} {s t : State} (h : drawPoints ps v s = .next t) {i : Nat}
    (hi : ∀ p ∈ ps, inGrid p.x p.y = true → cellIndex p.x p.y ≠ i) : t.fb.read i = s.fb.read i := by
  induction ps generalizing s with
  | nil =>
    cases h
    rfl
  | cons p ps ih =>
    obtain ⟨u, h1, h2⟩ := forEach_cons_next.1 h
    rw [ih h2 fun q hq => hi q (by simp [hq])]
    rcases pixelWrite_cases h1 with ⟨hg, old, -, rfl⟩ | ⟨-, rfl⟩
    · exact Memory.read_write_other _ _ (hi p (by simp) hg)
    · rfl

/-- A drawing completes when every cell it reaches inside the grid holds a value. -/
theorem drawPoints_completes {ps : List Point} {v : Bool} {s : State}
    (h : s.readable fun x y => (⟨x, y⟩ : Point) ∈ ps) : ∃ t, drawPoints ps v s = .next t := by
  induction ps generalizing s with
  | nil => exact ⟨s, rfl⟩
  | cons p ps ih =>
    have hp : ∃ u, pixelWrite p.x p.y v s = .next u := by
      cases hg : inGrid p.x p.y
      · exact ⟨_, pixelWrite_outGrid hg⟩
      · obtain ⟨b, hb⟩ := h p.x p.y (by simp) hg
        exact ⟨_, pixelWrite_inGrid hg hb⟩
    obtain ⟨u, hu⟩ := hp
    obtain ⟨t, ht⟩ := ih (s := u) fun x y hxy hg => (pixelWrite_holds hu _).2 (h x y (by simp [hxy]) hg)
    exact ⟨t, forEach_cons_next.2 ⟨u, hu, ht⟩⟩

/-- A drawing that does not complete has read a cell that holds no value. -/
theorem drawPoints_stops {ps : List Point} {v : Bool} {s : State} (h : ∀ t, drawPoints ps v s ≠ .next t) :
    ∃ p ∈ ps, inGrid p.x p.y = true ∧ s.fb.read (cellIndex p.x p.y) = none ∧
      drawPoints ps v s = .fault (.uninitialisedRead (cellIndex p.x p.y)) := by
  induction ps generalizing s with
  | nil => exact (h s rfl).elim
  | cons p ps ih =>
    have hcons : drawPoints (p :: ps) v s = andThen (pixelWrite p.x p.y v s) (drawPoints ps v) := rfl
    have hnext : ∀ u, pixelWrite p.x p.y v s = .next u →
        ∃ q ∈ p :: ps, inGrid q.x q.y = true ∧ s.fb.read (cellIndex q.x q.y) = none ∧
          drawPoints (p :: ps) v s = .fault (.uninitialisedRead (cellIndex q.x q.y)) := by
      intro u hu
      rw [hu, andThen_next] at hcons
      obtain ⟨q, hq, hg, hr, he⟩ := ih (s := u) fun t ht => h t (hcons.trans ht)
      refine ⟨q, by simp [hq], hg, ?_, hcons.trans he⟩
      have := pixelWrite_holds hu (cellIndex q.x q.y)
      simp only [State.holds, hr] at this
      cases hs : s.fb.read (cellIndex q.x q.y) with
      | none => rfl
      | some b => simp [hs] at this
    cases hg : inGrid p.x p.y
    · exact hnext _ (pixelWrite_outGrid hg)
    · cases ho : s.fb.read (cellIndex p.x p.y) with
      | some old => exact hnext _ (pixelWrite_inGrid hg ho)
      | none =>
        refine ⟨p, by simp, hg, ho, ?_⟩
        rw [hcons, pixelWrite_unwritten hg ho]
        rfl

end Sys2Proof.Machine
end

