-- ==== Sys2Proof/Laws/Frames.lean ====
section
/-! SUPPORT. Everything INIT and the emission of a frame can do, said once. -/

namespace Sys2Proof.Machine

/-- MemWrite over a list of indexes inside FB: it completes, writes exactly those cells, and keeps the canonical form. -/
theorem forEach_memWrite (f : Nat → Byte) {is : List Nat} (his : ∀ i ∈ is, i < Config.bufLen) (s : State) :
    ∃ m : Memory, forEach (fun i => memWrite i (f i)) is s = .next { s with fb := m } ∧
      (∀ i, m.read i = if i ∈ is then some (f i) else s.fb.read i) ∧ (s.fb.wf = true → m.wf = true) := by
  induction is generalizing s with
  | nil => exact ⟨s.fb, rfl, fun i => by simp, id⟩
  | cons a is ih =>
    obtain ⟨m, hm, hr, hw⟩ := ih (fun i hi => his i (by simp [hi])) { s with fb := s.fb.write a (f a) }
    refine ⟨m, ?_, fun i => ?_, fun h => hw (Memory.write_wf h (his a (by simp)))⟩
    · rw [forEach, memWrite_of_lt _ _ (his a (by simp)), andThen_next, hm]
    · rw [hr, Memory.read_write]
      by_cases hi : i ∈ is
      · simp [hi]
      · by_cases ha : a = i
        · simp [ha]
        · simp [hi, ha, Ne.symm ha]

/-- INIT completes from every state, and everything it does. -/
theorem execInit_next (s : State) :
    ∃ m : Memory, execInit s = .next (clearErrors { s with fb := m }) ∧
      (∀ i, m.read i = if i < Config.bufLen then some (initByte i) else s.fb.read i) ∧
      (s.fb.wf = true → m.wf = true) := by
  obtain ⟨m, hm, hr, hw⟩ := forEach_memWrite initByte (is := List.range Config.bufLen) (by simp) s
  refine ⟨m, ?_, fun i => by simp [hr], hw⟩
  unfold execInit
  rw [hm]
  rfl

theorem Consumer.take_always : Consumer.always.take = some .always := rfl

theorem Consumer.take_eq_some {c d : Consumer} (h : c.take = some d) (n : Nat) :
    (c.takes (n + 1) = d.takes n) ∧ c.after (n + 1) = d.after n := by
  cases c with
  | always =>
    cases h
    exact ⟨rfl, rfl⟩
  | upTo m =>
    cases m with
    | zero => cases h
    | succ m =>
      cases h
      simp [Consumer.takes, Consumer.after]

/-- Emission of `count` bytes to a consumer that takes them: the frame is whole (R91). -/
theorem emitFrom_whole {count i : Nat} {s : State} {bs : List Byte} (hl : bs.length = count)
    (hi : i + count ≤ Config.bufLen) (hr : ∀ j, j < count → s.fb.read (i + j) = bs[j]?)
    (hc : s.consumer.takes count = true) :
    emitFrom count i s =
      .next (endFrame { s with inFlight := s.inFlight ++ bs, consumer := s.consumer.after count }) := by
  induction count generalizing i s bs with
  | zero =>
    obtain rfl := List.length_eq_zero_iff.1 hl
    have : s.consumer.after 0 = s.consumer := by cases s.consumer <;> rfl
    simp [emitFrom, this]
  | succ count ih =>
    cases bs with
    | nil => cases hl
    | cons b bs =>
      have h0 : s.fb.read i = some b := by simpa using hr 0 (by omega)
      obtain ⟨d, hd⟩ : ∃ d, s.consumer.take = some d := by
        cases hcons : s.consumer with
        | always => exact ⟨_, rfl⟩
        | upTo m =>
          cases m with
          | zero => simp [hcons, Consumer.takes] at hc
          | succ m => exact ⟨_, rfl⟩
      obtain ⟨h1, h2⟩ := Consumer.take_eq_some hd count
      unfold emitFrom
      rw [memRead_ok_iff.2 ⟨by omega, h0⟩]
      simp only [hd]
      rw [ih (bs := bs) (by simpa using hl) (by omega) (fun j hj => ?_) (by simpa [← h1] using hc)]
      · simp [emit, endFrame, h2]
      · have := hr (j + 1) (by omega)
        rw [emit_fb]
        rw [show i + 1 + j = i + (j + 1) by omega, this]
        simp

/-- Emission to a consumer that takes `n` bytes and no more: the engine waits with byte `i + n` on offer (R157). -/
theorem emitFrom_waits {count i n : Nat} {s : State} {bs : List Byte} (hl : bs.length = n) (hn : n < count)
    (hi : i + count ≤ Config.bufLen) (hr : ∀ j, j < n → s.fb.read (i + j) = bs[j]?) (ho : s.holds (i + n))
    (hc : s.consumer = .upTo n) :
    emitFrom count i s =
      .next { s with inFlight := s.inFlight ++ bs, consumer := .upTo 0, engine := .emitting (i + n) } := by
  induction n generalizing count i s bs with
  | zero =>
    obtain rfl := List.length_eq_zero_iff.1 hl
    obtain ⟨count, rfl⟩ : ∃ c, count = c + 1 := ⟨count - 1, by omega⟩
    obtain ⟨b, hb⟩ := ho
    rw [Nat.add_zero] at hb
    unfold emitFrom
    rw [memRead_ok_iff.2 ⟨by omega, hb⟩]
    simp [hc, Consumer.take]
  | succ n ih =>
    cases bs with
    | nil => cases hl
    | cons b bs =>
      obtain ⟨count, rfl⟩ : ∃ c, count = c + 1 := ⟨count - 1, by omega⟩
      have h0 : s.fb.read i = some b := by simpa using hr 0 (by omega)
      unfold emitFrom
      rw [memRead_ok_iff.2 ⟨by omega, h0⟩]
      simp only [hc, Consumer.take]
      have hr' : ∀ j, j < n → (emit b (.upTo n) s).fb.read (i + 1 + j) = bs[j]? := fun j hj => by
        have := hr (j + 1) (by omega)
        rw [emit_fb, show i + 1 + j = i + (j + 1) by omega, this]
        simp
      have ho' : (emit b (.upTo n) s).holds (i + 1 + n) := by
        obtain ⟨c, hc⟩ := ho
        exact ⟨c, by rw [emit_fb, show i + 1 + n = i + (n + 1) by omega]; exact hc⟩
      rw [ih (bs := bs) (by simpa using hl) (by omega) (by omega) hr' ho' rfl]
      simp [emit, Nat.add_assoc, Nat.add_comm 1 n]

/-- Everything the emission of a frame can do when it answers a next state: the frame is whole, or the engine waits. -/
theorem emitFrom_cases {count i : Nat} {s t : State} (h : emitFrom count i s = .next t) :
    ∃ bs : List Byte, (∀ j, j < bs.length → s.fb.read (i + j) = bs[j]?) ∧
      ((bs.length = count ∧ s.consumer.takes count = true ∧
          t = endFrame { s with inFlight := s.inFlight ++ bs, consumer := s.consumer.after count }) ∨
        (bs.length < count ∧ i + bs.length < Config.bufLen ∧ s.holds (i + bs.length) ∧
          s.consumer = .upTo bs.length ∧
          t = { s with
            inFlight := s.inFlight ++ bs, consumer := .upTo 0, engine := .emitting (i + bs.length) })) := by
  induction count generalizing i s with
  | zero =>
    have : s.consumer.after 0 = s.consumer := by cases s.consumer <;> rfl
    refine ⟨[], by simp, .inl ⟨rfl, by cases s.consumer <;> simp [Consumer.takes], ?_⟩⟩
    cases h
    simp [this]
  | succ count ih =>
    unfold emitFrom at h
    cases hm : memRead i s with
    | error e => simp [hm] at h
    | ok b =>
      obtain ⟨hi, hb⟩ := memRead_ok_iff.1 hm
      simp only [hm] at h
      cases hc : s.consumer.take with
      | none =>
        have hc0 : s.consumer = .upTo 0 := by
          cases hs : s.consumer with
          | always => simp [hs, Consumer.take] at hc
          | upTo m =>
            cases m with
            | zero => rfl
            | succ m => simp [hs, Consumer.take] at hc
        simp only [hc] at h
        cases h
        exact ⟨[], by simp, .inr ⟨by simp, by simpa using hi, ⟨b, by simpa using hb⟩, hc0, by simp [← hc0]⟩⟩
      | some d =>
        simp only [hc] at h
        obtain ⟨bs, hr, hcase⟩ := ih h
        obtain ⟨h1, h2⟩ := Consumer.take_eq_some hc count
        refine ⟨b :: bs, fun j hj => ?_, ?_⟩
        · cases j with
          | zero => simpa using hb
          | succ j =>
            have := hr j (by simpa using hj)
            rw [emit_fb] at this
            rw [show i + (j + 1) = i + 1 + j by omega, this]
            simp
        · rcases hcase with ⟨hl, htk, rfl⟩ | ⟨hl, hlt, ⟨c, ho⟩, hcd, rfl⟩
          · refine .inl ⟨by simp [hl], by rw [h1]; exact htk, ?_⟩
            simp [emit, endFrame, h2]
          · refine .inr ⟨by simpa using hl, by simp; omega, ⟨c, ?_⟩, ?_, ?_⟩
            · rw [emit_fb] at ho
              rw [List.length_cons, show i + (bs.length + 1) = i + 1 + bs.length by omega]
              exact ho
            · rw [emit_consumer] at hcd
              subst hcd
              cases hs : s.consumer with
              | always => simp [hs, Consumer.take] at hc
              | upTo m =>
                cases m with
                | zero => simp [hs, Consumer.take] at hc
                | succ m =>
                  simp [hs, Consumer.take] at hc
                  simp [hc]
            · simp [emit, Nat.add_assoc, Nat.add_comm 1 bs.length]

/-- Emission from a cell that holds no value is the model's fault (R31). -/
theorem emitFrom_unwritten {count i : Nat} {s : State} (hi : i < Config.bufLen) (hr : s.fb.read i = none) :
    emitFrom (count + 1) i s = .fault (.uninitialisedRead i) := by
  unfold emitFrom
  rw [(memRead_error_iff hi).2 ⟨hr, rfl⟩]

end Sys2Proof.Machine
end

