-- ==== Sys2Proof/Laws/Points.lean ====
section
/-! SUPPORT. Which coordinates the point lists of the drawing commands hold, in plain arithmetic. -/

namespace Sys2Proof.Machine

theorem zext_nonneg (f : Byte) : 0 ≤ zext f := by simp [zext]

theorem zext_le (f : Byte) : zext f ≤ 255 := by
  have := f.isLt
  simp only [zext]
  omega

theorem mem_fillPoints {x y : Int} : (⟨x, y⟩ : Point) ∈ fillPoints ↔ inGrid x y = true := by
  simp only [fillPoints, List.mem_flatMap, List.mem_map, mem_upto, Point.mk.injEq, inGrid_iff]
  constructor
  · rintro ⟨b, hb, a, ha, rfl, rfl⟩
    omega
  · rintro ⟨h1, h2, h3, h4⟩
    exact ⟨y, by omega, x, by omega, rfl, rfl⟩

theorem mem_hlinePoints {x0 x1 y a b : Int} :
    (⟨a, b⟩ : Point) ∈ hlinePoints x0 x1 y ↔ x0 ≤ a ∧ a ≤ x1 ∧ b = y := by
  simp only [hlinePoints, List.mem_map, mem_upto, Point.mk.injEq]
  constructor
  · rintro ⟨k, hk, rfl, rfl⟩
    exact ⟨hk.1, hk.2, rfl⟩
  · rintro ⟨h1, h2, rfl⟩
    exact ⟨a, ⟨h1, h2⟩, rfl, rfl⟩

theorem mem_vlinePoints {x y0 y1 a b : Int} :
    (⟨a, b⟩ : Point) ∈ vlinePoints x y0 y1 ↔ a = x ∧ y0 ≤ b ∧ b ≤ y1 := by
  simp only [vlinePoints, List.mem_map, mem_upto, Point.mk.injEq]
  constructor
  · rintro ⟨k, hk, rfl, rfl⟩
    exact ⟨rfl, hk.1, hk.2⟩
  · rintro ⟨rfl, h1, h2⟩
    exact ⟨b, ⟨h1, h2⟩, rfl, rfl⟩

theorem mem_rectPoints {top left w h a b : Int} :
    (⟨a, b⟩ : Point) ∈ rectPoints top left w h ↔
      (left ≤ a ∧ a < left + w ∧ (b = top ∨ b = top + h - 1)) ∨
      (top ≤ b ∧ b < top + h ∧ (a = left ∨ a = left + w - 1)) := by
  simp only [rectPoints, List.mem_append, List.mem_flatMap, List.mem_cons, List.not_mem_nil, or_false, mem_upto,
    Point.mk.injEq]
  constructor
  · rintro (⟨i, hi, h | h⟩ | ⟨i, hi, h | h⟩) <;> omega
  · rintro (⟨h1, h2, h3⟩ | ⟨h1, h2, h3⟩)
    · exact .inl ⟨a - left, by omega, by omega⟩
    · exact .inr ⟨b - top, by omega, by omega⟩

/-- The loop of the walk from sample `k` on, when the bound on its iterations is large enough. -/
theorem mem_walkOffsetsFrom {spacing size o : Int} (hs : 1 ≤ spacing) {fuel : Nat} {k : Int} (hk : 0 ≤ k)
    (hf : size ≤ k + fuel) :
    o ∈ walkOffsetsFrom spacing size fuel k ↔ ∃ n : Nat, o = (k + n) * spacing ∧ o < size := by
  induction fuel generalizing k with
  | zero =>
    simp only [walkOffsetsFrom, List.not_mem_nil, false_iff]
    rintro ⟨n, rfl, h⟩
    have : k + n ≤ (k + n) * spacing := le_mul_of_one_le_right (by omega) hs
    push_cast at hf
    omega
  | succ fuel ih =>
    unfold walkOffsetsFrom
    split
    · rename_i hlt
      rw [List.mem_cons, ih (by omega) (by push_cast at hf; omega)]
      constructor
      · rintro (rfl | ⟨n, rfl, h⟩)
        · exact ⟨0, by simp, hlt⟩
        · exact ⟨n + 1, by push_cast; ring, h⟩
      · rintro ⟨n, rfl, h⟩
        cases n with
        | zero => exact .inl (by simp)
        | succ n => exact .inr ⟨n, by push_cast; ring, h⟩
    · rename_i hge
      simp only [List.not_mem_nil, false_iff]
      rintro ⟨n, rfl, h⟩
      apply hge
      refine lt_of_le_of_lt ?_ h
      exact mul_le_mul_of_nonneg_right (by omega) (by omega)

/-- The sample offsets of the walk are the multiples of the spacing below the size (R120). -/
theorem mem_walkOffsets {spacing size o : Int} (hs : 1 ≤ spacing) :
    o ∈ walkOffsets spacing size ↔ ∃ n : Nat, o = n * spacing ∧ o < size := by
  unfold walkOffsets
  rw [mem_walkOffsetsFrom hs le_rfl (by omega)]
  simp

/-- The points of the walk are those of the stamps at the samples of its four edges (R120). -/
theorem mem_walkPoints {top left w h spacing q : Int} {stamp : Int → Int → List Point} {p : Point}
    (hs : 1 ≤ spacing) :
    p ∈ walkPoints top left w h spacing q stamp ↔
      (∃ n : Nat, n * spacing < w ∧ (p ∈ stamp (left + n * spacing) top ∨
        p ∈ stamp (left + n * spacing) (top + h - q))) ∨
      (∃ n : Nat, n * spacing < h ∧ (p ∈ stamp left (top + n * spacing) ∨
        p ∈ stamp (left + w - q) (top + n * spacing))) := by
  simp only [walkPoints, List.mem_append, List.mem_flatMap, mem_walkOffsets hs]
  constructor
  · rintro (⟨_, ⟨n, rfl, h⟩, h'⟩ | ⟨_, ⟨n, rfl, h⟩, h'⟩)
    · exact .inl ⟨n, h, h'⟩
    · exact .inr ⟨n, h, h'⟩
  · rintro (⟨n, h, h'⟩ | ⟨n, h, h'⟩)
    · exact .inl ⟨_, ⟨n, rfl, h⟩, h'⟩
    · exact .inr ⟨_, ⟨n, rfl, h⟩, h'⟩

theorem mem_starStamp {px py a b : Int} :
    (⟨a, b⟩ : Point) ∈ starStamp px py ↔
      (a = px ∧ b = py) ∨ (a = px ∧ b = py - 1) ∨ (a = px ∧ b = py + 1) ∨ (a = px - 1 ∧ b = py) ∨
        (a = px + 1 ∧ b = py) := by
  simp [starStamp]

theorem mem_heartStamp {px py a b : Int} :
    (⟨a, b⟩ : Point) ∈ heartStamp px py ↔
      (a = px ∧ b = py) ∨ (a = px - 1 ∧ b = py - 1) ∨ (a = px + 1 ∧ b = py - 1) ∨ (a = px - 2 ∧ b = py) ∨
        (a = px + 2 ∧ b = py) ∨ (a = px - 1 ∧ b = py + 1) ∨ (a = px + 1 ∧ b = py + 1) ∨ (a = px ∧ b = py + 2) := by
  simp [heartStamp]

theorem mem_squareStamp {px py a b : Int} :
    (⟨a, b⟩ : Point) ∈ squareStamp px py ↔
      px ≤ a ∧ a ≤ px + 2 ∧ py ≤ b ∧ b ≤ py + 2 ∧ ¬ (a = px + 1 ∧ b = py + 1) := by
  simp only [squareStamp, mem_rectPoints, Config.squareSize]
  omega

end Sys2Proof.Machine
end

