-- ==== Sys2Proof/Laws/Step.lean ====
section
/-! SUPPORT. What a step is, said once: a reset, or one action of the engine after the host's move. -/

namespace Sys2Proof.Machine

theorem step_of_reset {s : State} {ms : List HostMove} (h : s.moves = .reset :: ms) :
    step s = .next (resetBlock { s with moves := ms }) := by
  simp [step, turn, h]

theorem resetNext_iff {s : State} : s.resetNext = true ↔ ∃ ms, s.moves = .reset :: ms := by
  unfold State.resetNext
  split <;> simp_all

theorem step_of_not_reset {s : State} (h : s.resetNext = false) : step s = engineTurn s.afterHost := by
  unfold step turn State.afterHost
  unfold State.resetNext at h
  split at h <;> simp_all
  split <;> simp_all

/-- The host's move changes the ports only. -/
theorem afterHost_block (s : State) :
    s.afterHost = { s with words := s.afterHost.words, consumer := s.afterHost.consumer, moves := s.afterHost.moves } := by
  unfold State.afterHost
  split
  · rfl
  · rename_i m ms h
    cases m <;> rfl

/-- Everything a step can do: reset, going on with a frame, nothing, raising IllegalCommand, or executing a command. -/
theorem step_cases (s : State) :
    (∃ ms, s.moves = .reset :: ms ∧ step s = .next (resetBlock { s with moves := ms })) ∨
    (s.resetNext = false ∧ ∃ i, s.afterHost.engine = .emitting i ∧ step s = resumeFrame i s.afterHost) ∨
    (s.resetNext = false ∧ s.afterHost.engine = .idle ∧ s.afterHost.words = [] ∧ step s = .next s.afterHost) ∨
    (s.resetNext = false ∧ s.afterHost.engine = .idle ∧ ∃ w ws, s.afterHost.words = w :: ws ∧
      ((∃ e, decode w = .error e ∧ step s = .next (raise .illegalCommand { s.afterHost with words := ws })) ∨
        ∃ i, decode w = .ok i ∧ step s = exec i (latch w { s.afterHost with words := ws }))) := by
  cases hr : s.resetNext
  · refine .inr ?_
    rw [step_of_not_reset hr]
    cases he : s.afterHost.engine with
    | emitting i => exact .inl ⟨rfl, i, rfl, by simp [engineTurn, he]⟩
    | idle =>
      refine .inr ?_
      cases hw : s.afterHost.words with
      | nil => exact .inl ⟨rfl, rfl, rfl, by simp [engineTurn, he, hw]⟩
      | cons w ws =>
        refine .inr ⟨rfl, rfl, w, ws, rfl, ?_⟩
        cases hd : decode w with
        | error e => exact .inl ⟨e, rfl, by simp [engineTurn, he, hw, accept, hd]⟩
        | ok i => exact .inr ⟨i, rfl, by simp [engineTurn, he, hw, accept, hd]⟩
  · obtain ⟨ms, hms⟩ := resetNext_iff.1 hr
    exact .inl ⟨ms, hms, step_of_reset hms⟩

end Sys2Proof.Machine
end

