-- ==== Sys2Proof/Laws/Exec.lean ====
section
/-! SUPPORT. Every command but INIT and FRAME_OUT is the drawing of its points. -/

namespace Sys2Proof.Machine

/-- A drawing of one point is its PixelWrite. -/
theorem drawPoints_singleton (p : Point) (v : Bool) (s : State) :
    drawPoints [p] v s = pixelWrite p.x p.y v s := by
  simp only [drawPoints, forEach]
  cases pixelWrite p.x p.y v s <;> rfl

/-- The drawing commands draw the points of `drawnPoints`, with one value (R108). -/
theorem exec_drawing {i : Instr} (h1 : i ≠ .init) (h2 : i ≠ .frameOut) :
    ∃ v, ∀ s, exec i s = drawPoints (drawnPoints i) v s := by
  cases i with
  | init => exact (h1 rfl).elim
  | frameOut => exact (h2 rfl).elim
  | pixel x y v => exact ⟨v, fun s => (drawPoints_singleton ⟨zext x, zext y⟩ v s).symm⟩
  | fill v => exact ⟨v, fun _ => rfl⟩
  | hline x0 x1 y v => exact ⟨v, fun _ => rfl⟩
  | vline x y0 y1 v => exact ⟨v, fun _ => rfl⟩
  | line x0 y0 x1 y1 v => exact ⟨v, fun _ => rfl⟩
  | rect t l w h v => exact ⟨v, fun _ => rfl⟩
  | star t l w h v => exact ⟨v, fun _ => rfl⟩
  | heart t l w h v => exact ⟨v, fun _ => rfl⟩
  | square t l w h v => exact ⟨v, fun _ => rfl⟩

/-- A drawing whose points are the coordinates `P` completes wherever they are readable, and what it does. -/
theorem drawPoints_result {ps : List Point} {P : Int → Int → Prop} (hP : ∀ x y, (⟨x, y⟩ : Point) ∈ ps ↔ P x y)
    (v : Bool) {s : State} (h : s.readable P) : ∃ t, drawPoints ps v s = .next t ∧ Drawn s t P v := by
  obtain ⟨t, ht⟩ := drawPoints_completes (ps := ps) (v := v) (s := s) fun x y hxy => h x y ((hP x y).1 hxy)
  exact ⟨t, ht, (drawPoints_drawn ht).congr hP⟩

end Sys2Proof.Machine
end

