-- ==== Sys2Proof/Laws/Line.lean ====
section
/-! SUPPORT. LINE's loop as an iteration, and the invariant that ties its error term to the steps taken on each axis. -/

namespace Sys2Proof.Machine

/-- Where the loop is after `m` iterations. -/
def LineParams.at (p : LineParams) (w : LineWork) (m : Nat) : LineWork := (LineWork.advance p)^[m] w

theorem LineParams.at_zero (p : LineParams) (w : LineWork) : p.at w 0 = w := rfl

theorem LineParams.at_succ (p : LineParams) (w : LineWork) (m : Nat) :
    p.at w (m + 1) = (p.at w m).advance p := Function.iterate_succ_apply' ..

/-- The trace of a loop that first meets its exit test after `n` iterations, when the bound lets it: the `n + 1` points
of the iteration. -/
theorem lineTrace_eq {p : LineParams} {n fuel : Nat} {w : LineWork} (hf : n < fuel)
    (hmore : ∀ m, m < n → (p.at w m).atEnd p = false) (hend : (p.at w n).atEnd p = true) :
    lineTrace p fuel w = (List.range (n + 1)).map (p.at w) := by
  induction n generalizing fuel w with
  | zero =>
    obtain ⟨f, rfl⟩ : ∃ f, fuel = f + 1 := ⟨fuel - 1, by omega⟩
    have : w.atEnd p = true := hend
    simp [lineTrace, this, LineParams.at]
  | succ n ih =>
    obtain ⟨f, rfl⟩ : ∃ f, fuel = f + 1 := ⟨fuel - 1, by omega⟩
    have h0 : w.atEnd p = false := hmore 0 (by omega)
    rw [lineTrace, h0, List.range_succ_eq_map, List.map_cons, List.map_map]
    congr 1
    exact ih (w := w.advance p) (by omega) (fun m hm => hmore (m + 1) (by omega)) hend

/-- The loop after `k` iterations of a line at least as wide as tall: `k` steps on x and `j` on y. -/
structure MajorX (p : LineParams) (x0 y0 : Int) (k j : Int) (w : LineWork) : Prop where
  cx : w.cx = x0 + p.sx * k
  cy : w.cy = y0 + p.sy * j
  err : w.err = p.dx - p.dy - k * p.dy + j * p.dx
  diagonal : p.dx = p.dy → j = k
  lower : p.dx - 2 * p.dy ≤ 2 * w.err
  upper : 2 * w.err < 3 * p.dx - 2 * p.dy

/-- The loop after `k` iterations of a line taller than wide: `k` steps on y and `j` on x. -/
structure MajorY (p : LineParams) (x0 y0 : Int) (k j : Int) (w : LineWork) : Prop where
  cx : w.cx = x0 + p.sx * j
  cy : w.cy = y0 + p.sy * k
  err : w.err = p.dx - p.dy + k * p.dx - j * p.dy
  lower : p.dy - 2 * p.dx ≤ -(2 * w.err)
  upper : -(2 * w.err) < 3 * p.dy - 2 * p.dx

/-- One more iteration of a line at least as wide as tall steps on x, and on y or not. -/
theorem MajorX.advance {p : LineParams} {x0 y0 k j : Int} {w : LineWork} (h : MajorX p x0 y0 k j w) (hx : 0 < p.dx)
    (hy : 0 ≤ p.dy) (hxy : p.dy ≤ p.dx) :
    MajorX p x0 y0 (k + 1) j (w.advance p) ∨ MajorX p x0 y0 (k + 1) (j + 1) (w.advance p) := by
  obtain ⟨hcx, hcy, herr, hd, hl, hu⟩ := h
  have h0 : p.dx = p.dy → w.err = 0 := fun he => by
    rw [herr, hd he, he]
    ring
  have hxt : 2 * w.err > -p.dy := by
    rcases Int.lt_or_eq_of_le hxy with hlt | he
    · omega
    · rw [h0 he.symm]
      omega
  by_cases hyt : 2 * w.err < p.dx
  · right
    have : w.advance p = ⟨w.cx + p.sx, w.cy + p.sy, w.err - p.dy + p.dx⟩ := by
      simp [LineWork.advance, LineWork.stepX, LineWork.stepY, hxt, hyt]
    rw [this]
    refine ⟨?_, ?_, ?_, ?_, ?_, ?_⟩
    · simp only [hcx]
      ring
    · simp only [hcy]
      ring
    · simp only [herr]
      ring
    · intro he
      rw [hd he]
    · simp only
      omega
    · simp only
      omega
  · left
    have : w.advance p = ⟨w.cx + p.sx, w.cy, w.err - p.dy⟩ := by
      simp [LineWork.advance, LineWork.stepX, LineWork.stepY, hxt, hyt]
    rw [this]
    refine ⟨?_, hcy, ?_, ?_, ?_, ?_⟩
    · simp only [hcx]
      ring
    · simp only [herr]
      ring
    · intro he
      rw [h0 he] at hyt
      omega
    · simp only
      omega
    · simp only
      omega

/-- One more iteration of a line taller than wide steps on y, and on x or not. -/
theorem MajorY.advance {p : LineParams} {x0 y0 k j : Int} {w : LineWork} (h : MajorY p x0 y0 k j w) (hx : 0 ≤ p.dx)
    (hxy : p.dx < p.dy) :
    MajorY p x0 y0 (k + 1) j (w.advance p) ∨ MajorY p x0 y0 (k + 1) (j + 1) (w.advance p) := by
  obtain ⟨hcx, hcy, herr, hl, hu⟩ := h
  have hyt : 2 * w.err < p.dx := by omega
  by_cases hxt : 2 * w.err > -p.dy
  · right
    have : w.advance p = ⟨w.cx + p.sx, w.cy + p.sy, w.err - p.dy + p.dx⟩ := by
      simp [LineWork.advance, LineWork.stepX, LineWork.stepY, hxt, hyt]
    rw [this]
    refine ⟨?_, ?_, ?_, ?_, ?_⟩
    · simp only [hcx]
      ring
    · simp only [hcy]
      ring
    · simp only [herr]
      ring
    · simp only
      omega
    · simp only
      omega
  · left
    have : w.advance p = ⟨w.cx, w.cy + p.sy, w.err + p.dx⟩ := by
      simp [LineWork.advance, LineWork.stepX, LineWork.stepY, hxt, hyt]
    rw [this]
    refine ⟨hcx, ?_, ?_, ?_, ?_⟩
    · simp only [hcy]
      ring
    · simp only [herr]
      ring
    · simp only
      omega
    · simp only
      omega

/-- The steps on the minor axis stay within its delta, and are all taken at the end (R106). -/
theorem MajorX.minor {p : LineParams} {x0 y0 k j : Int} {w : LineWork} (h : MajorX p x0 y0 k j w) (hx : 0 < p.dx)
    (hy : 0 ≤ p.dy) (hk : k ≤ p.dx) : j ≤ p.dy ∧ (k = p.dx → j = p.dy) := by
  obtain ⟨-, -, herr, -, hl, hu⟩ := h
  have hkd : k * p.dy ≤ p.dx * p.dy := mul_le_mul_of_nonneg_right hk hy
  constructor
  · by_contra hc
    have : (p.dy + 1) * p.dx ≤ j * p.dx := mul_le_mul_of_nonneg_right (by omega) (by omega)
    nlinarith
  · rintro rfl
    have h1 : j ≤ p.dy := by
      by_contra hc
      have : (p.dy + 1) * p.dx ≤ j * p.dx := mul_le_mul_of_nonneg_right (by omega) (by omega)
      nlinarith
    by_contra hc
    have : j * p.dx ≤ (p.dy - 1) * p.dx := mul_le_mul_of_nonneg_right (by omega) (by omega)
    nlinarith

/-- The same on a line taller than wide (R106). -/
theorem MajorY.minor {p : LineParams} {x0 y0 k j : Int} {w : LineWork} (h : MajorY p x0 y0 k j w) (hx : 0 ≤ p.dx)
    (hy : 0 < p.dy) (hk : k ≤ p.dy) : j ≤ p.dx ∧ (k = p.dy → j = p.dx) := by
  obtain ⟨-, -, herr, hl, hu⟩ := h
  have hkd : k * p.dx ≤ p.dy * p.dx := mul_le_mul_of_nonneg_right hk hx
  have h1 : j ≤ p.dx := by
    by_contra hc
    have : (p.dx + 1) * p.dy ≤ j * p.dy := mul_le_mul_of_nonneg_right (by omega) (by omega)
    nlinarith
  refine ⟨h1, ?_⟩
  rintro rfl
  by_contra hc
  have : j * p.dy ≤ (p.dx - 1) * p.dy := mul_le_mul_of_nonneg_right (by omega) (by omega)
  nlinarith

/-- After `m` iterations of a line at least as wide as tall, for some number of steps on y that starts at 0. -/
theorem majorX_at {p : LineParams} {x0 y0 : Int} {w : LineWork} (h : MajorX p x0 y0 0 0 w) (hx : 0 < p.dx)
    (hy : 0 ≤ p.dy) (hxy : p.dy ≤ p.dx) (m : Nat) : ∃ j : Int, 0 ≤ j ∧ MajorX p x0 y0 m j (p.at w m) := by
  induction m with
  | zero => exact ⟨0, le_rfl, h⟩
  | succ m ih =>
    obtain ⟨j, hj, hm⟩ := ih
    rw [LineParams.at_succ]
    push_cast
    rcases hm.advance hx hy hxy with h | h
    · exact ⟨j, hj, h⟩
    · exact ⟨j + 1, by omega, h⟩

/-- After `m` iterations of a line taller than wide, for some number of steps on x that starts at 0. -/
theorem majorY_at {p : LineParams} {x0 y0 : Int} {w : LineWork} (h : MajorY p x0 y0 0 0 w) (hx : 0 ≤ p.dx)
    (hxy : p.dx < p.dy) (m : Nat) : ∃ j : Int, 0 ≤ j ∧ MajorY p x0 y0 m j (p.at w m) := by
  induction m with
  | zero => exact ⟨0, le_rfl, h⟩
  | succ m ih =>
    obtain ⟨j, hj, hm⟩ := ih
    rw [LineParams.at_succ]
    push_cast
    rcases hm.advance hx hxy with h | h
    · exact ⟨j, hj, h⟩
    · exact ⟨j + 1, by omega, h⟩

end Sys2Proof.Machine
end

