-- ==== Sys2Proof/Laws/Words.lean ====
section
/-! SUPPORT. The fields of a packed word, and what it takes for a word to select a row of the opcode map. -/

namespace Sys2Proof

section fields
variable (op : OpField) (v : Bool) (a b c d : Byte)

@[simp] theorem op_packWord : CmdWord.op (packWord op v a b c d) = op := by
  apply BitVec.eq_of_getLsbD_eq
  intro i hi
  interval_cases i <;> simp [CmdWord.op, packWord, BitVec.getLsbD_of_ge]

@[simp] theorem rsv_packWord : CmdWord.rsv (packWord op v a b c d) = 0 := by
  apply BitVec.eq_of_getLsbD_eq
  intro i hi
  interval_cases i <;> simp [CmdWord.rsv, packWord, BitVec.getLsbD_of_ge]

@[simp] theorem v_packWord : CmdWord.v (packWord op v a b c d) = v := by
  simp [CmdWord.v, packWord, BitVec.getLsbD_of_ge]

@[simp] theorem a_packWord : CmdWord.a (packWord op v a b c d) = a := by
  apply BitVec.eq_of_getLsbD_eq
  intro i hi
  interval_cases i <;> simp [CmdWord.a, packWord, BitVec.getLsbD_of_ge]

@[simp] theorem b_packWord : CmdWord.b (packWord op v a b c d) = b := by
  apply BitVec.eq_of_getLsbD_eq
  intro i hi
  interval_cases i <;> simp [CmdWord.b, packWord, BitVec.getLsbD_of_ge]

@[simp] theorem c_packWord : CmdWord.c (packWord op v a b c d) = c := by
  apply BitVec.eq_of_getLsbD_eq
  intro i hi
  interval_cases i <;> simp [CmdWord.c, packWord, BitVec.getLsbD_of_ge]

@[simp] theorem d_packWord : CmdWord.d (packWord op v a b c d) = d := by
  apply BitVec.eq_of_getLsbD_eq
  intro i hi
  interval_cases i <;> simp [CmdWord.d, packWord]

end fields

/-- A word whose RSV is zero is packed from its fields (R61). -/
theorem packWord_fields {w : CmdWord} (h : CmdWord.rsv w = 0) :
    packWord (CmdWord.op w) (CmdWord.v w) (CmdWord.a w) (CmdWord.b w) (CmdWord.c w) (CmdWord.d w) = w := by
  have h33 : ∀ i, i < 3 → w.getLsbD (33 + i) = false := fun i hi => by
    have := congrArg (fun r : BitVec 3 => r.getLsbD i) h
    simpa [CmdWord.rsv, hi] using this
  have h0 := h33 0 (by omega)
  have h1 := h33 1 (by omega)
  have h2 := h33 2 (by omega)
  apply BitVec.eq_of_getLsbD_eq
  intro i hi
  interval_cases i <;>
    simp_all [CmdWord.op, CmdWord.v, CmdWord.a, CmdWord.b, CmdWord.c, CmdWord.d, packWord, BitVec.getLsbD_of_ge]

/-- Two words are equal when all their fields are. -/
theorem word_ext {w u : CmdWord} (ho : CmdWord.op w = CmdWord.op u) (hr : CmdWord.rsv w = CmdWord.rsv u)
    (hv : CmdWord.v w = CmdWord.v u) (ha : CmdWord.a w = CmdWord.a u) (hb : CmdWord.b w = CmdWord.b u)
    (hc : CmdWord.c w = CmdWord.c u) (hd : CmdWord.d w = CmdWord.d u) : w = u := by
  have bits : ∀ {n k : Nat} (x y : BitVec n), x = y → x.getLsbD k = y.getLsbD k := fun _ _ h => by rw [h]
  have fo := fun i => bits (k := i) _ _ ho
  have fr := fun i => bits (k := i) _ _ hr
  have fa := fun i => bits (k := i) _ _ ha
  have fb := fun i => bits (k := i) _ _ hb
  have fc := fun i => bits (k := i) _ _ hc
  have fd := fun i => bits (k := i) _ _ hd
  simp only [CmdWord.op, CmdWord.rsv, CmdWord.v, CmdWord.a, CmdWord.b, CmdWord.c, CmdWord.d,
    BitVec.getLsbD_extractLsb'] at fo fr hv fa fb fc fd
  apply BitVec.eq_of_getLsbD_eq
  intro i hi
  rcases Nat.lt_or_ge i 8 with h | h
  · simpa [h] using fd i
  rcases Nat.lt_or_ge i 16 with h | h
  · simpa [show i - 8 < 8 by omega, show 8 + (i - 8) = i by omega] using fc (i - 8)
  rcases Nat.lt_or_ge i 24 with h | h
  · simpa [show i - 16 < 8 by omega, show 16 + (i - 16) = i by omega] using fb (i - 16)
  rcases Nat.lt_or_ge i 32 with h | h
  · simpa [show i - 24 < 8 by omega, show 24 + (i - 24) = i by omega] using fa (i - 24)
  rcases Nat.lt_or_ge i 33 with h | h
  · obtain rfl : i = 32 := by omega
    exact hv
  rcases Nat.lt_or_ge i 36 with h | h
  · simpa [show i - 33 < 3 by omega, show 33 + (i - 33) = i by omega] using fr (i - 33)
  · simpa [show i - 36 < 4 by omega, show 36 + (i - 36) = i by omega] using fo (i - 36)

/-- A masked word compared field by field. -/
theorem and_eq_iff_fields (w m p : CmdWord) :
    w &&& m = p ↔
      CmdWord.op w &&& CmdWord.op m = CmdWord.op p ∧ CmdWord.rsv w &&& CmdWord.rsv m = CmdWord.rsv p ∧
        (CmdWord.v w && CmdWord.v m) = CmdWord.v p ∧ CmdWord.a w &&& CmdWord.a m = CmdWord.a p ∧
        CmdWord.b w &&& CmdWord.b m = CmdWord.b p ∧ CmdWord.c w &&& CmdWord.c m = CmdWord.c p ∧
        CmdWord.d w &&& CmdWord.d m = CmdWord.d p := by
  have e : ∀ s n, (w &&& m).extractLsb' s n = w.extractLsb' s n &&& m.extractLsb' s n := fun s n =>
    BitVec.eq_of_getLsbD_eq fun i hi => by simp [hi]
  constructor
  · rintro rfl
    simp only [CmdWord.op, CmdWord.rsv, CmdWord.v, CmdWord.a, CmdWord.b, CmdWord.c, CmdWord.d, e,
      BitVec.getLsbD_and, and_self]
  · rintro ⟨h1, h2, h3, h4, h5, h6, h7⟩
    apply word_ext <;>
      simp only [CmdWord.op, CmdWord.rsv, CmdWord.v, CmdWord.a, CmdWord.b, CmdWord.c, CmdWord.d, e,
        BitVec.getLsbD_and] at * <;> assumption

/-- A row of the opcode map selects a word when the word has its opcode, RSV zero, and the fields its format does not
use zero: the mask and match of R64 say what R62 says. -/
theorem selects_iff {r : Row} (hr : r ∈ opcodeMap) (w : CmdWord) :
    r.selects w = true ↔
      CmdWord.op w = r.opcode.number ∧ CmdWord.rsv w = 0 ∧ CmdWord.unusedZero w r.opcode.format = true := by
  have all4 : ∀ x : BitVec 4, x &&& 0xF#4 = x := by decide
  have all3 : ∀ x : BitVec 3, x &&& 0x7#3 = x := by decide
  have all8 : ∀ x : BitVec 8, x &&& 0xFF#8 = x := by decide
  unfold Row.selects
  rw [beq_iff_eq, and_eq_iff_fields]
  simp only [opcodeMap, List.mem_cons, List.not_mem_nil, or_false] at hr
  rcases hr with rfl | rfl | rfl | rfl | rfl | rfl | rfl | rfl | rfl | rfl | rfl <;>
    simp [CmdWord.unusedZero, Opcode.format, Opcode.number, CmdWord.op, CmdWord.rsv, CmdWord.v, CmdWord.a, CmdWord.b,
      CmdWord.c, CmdWord.d, all4, all3, all8, and_assoc]

/-- What a decoded word is: the operands of a row it selects (R64). -/
theorem decode_ok {w : CmdWord} {i : Instr} (h : decode w = .ok i) :
    ∃ r ∈ opcodeMap, r.selects w = true ∧ i = r.opcode.operands w := by
  unfold decode at h
  cases hf : opcodeMap.find? (fun r => r.selects w) with
  | none => simp [hf] at h
  | some r =>
    simp only [hf] at h
    cases h
    exact ⟨r, List.mem_of_find?_eq_some hf, by simpa using List.find?_some hf, rfl⟩

/-- What a word that does not decode is: one that selects no row (R64, R65). -/
theorem decode_error {w : CmdWord} {e : IllegalReason} (h : decode w = .error e) :
    (∀ r ∈ opcodeMap, r.selects w = false) ∧ e = illegalReason w := by
  unfold decode at h
  cases hf : opcodeMap.find? (fun r => r.selects w) with
  | none =>
    simp only [hf] at h
    cases h
    exact ⟨fun r hr => by simpa using List.find?_eq_none.1 hf r hr, rfl⟩
  | some r => simp [hf] at h

/-- A word that selects a row decodes to that row's command. -/
theorem decode_of_selects {w : CmdWord} {r : Row} (hr : r ∈ opcodeMap) (hs : r.selects w = true) :
    decode w = .ok (r.opcode.operands w) := by
  cases hd : decode w with
  | error e => simp [(decode_error hd).1 r hr] at hs
  | ok i =>
    obtain ⟨r', hr', hs', rfl⟩ := decode_ok hd
    have hn : r'.opcode.number = r.opcode.number := by
      rw [← ((selects_iff hr' w).1 hs').1, ((selects_iff hr w).1 hs).1]
    have hop : ∀ o o' : Opcode, o.number = o'.number → o = o' := by
      intro o o'
      cases o <;> cases o' <;> decide
    rw [hop _ _ hn]

end Sys2Proof
end

