-- ==== Sys2Proof/Laws/PerInstr.lean ====
section
/-! SUPPORT. The family EncodedFields: the word of each command, read by its fields, has the command's opcode and RSV
zero and is well formed by R62, which the encoder does not consult. -/

namespace Sys2Proof.Laws.EncodedFields

/-- The word of a command has its opcode number, RSV zero, and every field its format does not use zero (R61, R62,
R64). -/
def Statement (i : Instr) : Prop :=
  CmdWord.op (encode i) = i.opcode.number ∧ CmdWord.rsv (encode i) = 0 ∧ CmdWord.wf (encode i) = true

/-- A word with the opcode of a command, RSV zero and its unused fields zero is well formed. -/
theorem wf_of_fields {o : Opcode} {w : CmdWord} (ho : CmdWord.op w = o.number) (hr : CmdWord.rsv w = 0)
    (hu : CmdWord.unusedZero w o.format = true) : CmdWord.wf w = true := by
  have : Opcode.ofNumber o.number = some o := by cases o <;> rfl
  simp [CmdWord.wf, ho, this, hr, hu]

theorem init : Statement .init :=
  ⟨by simp [encode], by simp [encode],
    wf_of_fields (o := .init) (by simp [encode, Instr.opcode]) (by simp [encode])
      (by simp [encode, CmdWord.unusedZero, Opcode.format])⟩

theorem pixel (x y : Byte) (v : Bool) : Statement (.pixel x y v) :=
  ⟨by simp [encode], by simp [encode],
    wf_of_fields (o := .pixel) (by simp [encode, Instr.opcode]) (by simp [encode])
      (by simp [encode, CmdWord.unusedZero, Opcode.format])⟩

theorem fill (v : Bool) : Statement (.fill v) :=
  ⟨by simp [encode], by simp [encode],
    wf_of_fields (o := .fill) (by simp [encode, Instr.opcode]) (by simp [encode])
      (by simp [encode, CmdWord.unusedZero, Opcode.format])⟩

theorem hline (x0 x1 y : Byte) (v : Bool) : Statement (.hline x0 x1 y v) :=
  ⟨by simp [encode], by simp [encode],
    wf_of_fields (o := .hline) (by simp [encode, Instr.opcode]) (by simp [encode])
      (by simp [encode, CmdWord.unusedZero, Opcode.format])⟩

theorem vline (x y0 y1 : Byte) (v : Bool) : Statement (.vline x y0 y1 v) :=
  ⟨by simp [encode], by simp [encode],
    wf_of_fields (o := .vline) (by simp [encode, Instr.opcode]) (by simp [encode])
      (by simp [encode, CmdWord.unusedZero, Opcode.format])⟩

theorem line (x0 y0 x1 y1 : Byte) (v : Bool) : Statement (.line x0 y0 x1 y1 v) :=
  ⟨by simp [encode], by simp [encode],
    wf_of_fields (o := .line) (by simp [encode, Instr.opcode]) (by simp [encode])
      (by simp [CmdWord.unusedZero, Opcode.format])⟩

theorem rect (t l w h : Byte) (v : Bool) : Statement (.rect t l w h v) :=
  ⟨by simp [encode], by simp [encode],
    wf_of_fields (o := .rect) (by simp [encode, Instr.opcode]) (by simp [encode])
      (by simp [CmdWord.unusedZero, Opcode.format])⟩

theorem star (t l w h : Byte) (v : Bool) : Statement (.star t l w h v) :=
  ⟨by simp [encode], by simp [encode],
    wf_of_fields (o := .star) (by simp [encode, Instr.opcode]) (by simp [encode])
      (by simp [CmdWord.unusedZero, Opcode.format])⟩

theorem heart (t l w h : Byte) (v : Bool) : Statement (.heart t l w h v) :=
  ⟨by simp [encode], by simp [encode],
    wf_of_fields (o := .heart) (by simp [encode, Instr.opcode]) (by simp [encode])
      (by simp [CmdWord.unusedZero, Opcode.format])⟩

theorem square (t l w h : Byte) (v : Bool) : Statement (.square t l w h v) :=
  ⟨by simp [encode], by simp [encode],
    wf_of_fields (o := .square) (by simp [encode, Instr.opcode]) (by simp [encode])
      (by simp [CmdWord.unusedZero, Opcode.format])⟩

theorem frameOut : Statement .frameOut :=
  ⟨by simp [encode], by simp [encode],
    wf_of_fields (o := .frameOut) (by simp [encode, Instr.opcode]) (by simp [encode])
      (by simp [encode, CmdWord.unusedZero, Opcode.format])⟩

end Sys2Proof.Laws.EncodedFields
end

