-- ==== Sys2Proof/Tests/Slice0.lean ====
section
/-! SUPPORT. The model's own tests: each check of WellFormed on an ill-formed term, the decoding of every constructor from
a word written out bit by bit from R64, worked examples of spec/ (the vector's name stands in each docstring), and a
witness for the hypotheses of every statement. -/

open Sys2Proof Sys2Proof.Machine

namespace Sys2Proof.Tests

/-! ## Ill-formed terms -/

theorem test_wf_height_not_multiple_of_8 : Geometry.wf ⟨128, 60⟩ = false := by decide
theorem test_wf_pages_not_8 : Geometry.wf ⟨128, 32⟩ = false := by decide
theorem test_wf_width_0 : Geometry.wf ⟨0, 64⟩ = false := by decide
theorem test_wf_width_129 : Geometry.wf ⟨129, 64⟩ = false := by decide
theorem test_build_refuses : Geometry.build ⟨128, 128⟩ = none := by decide
theorem test_wf_opcode_0 : CmdWord.wf 0x0000000000 = false := by decide
theorem test_wf_opcode_C : CmdWord.wf 0xC000000000 = false := by decide
theorem test_wf_reserved : CmdWord.wf 0x6300000703 = false := by decide
theorem test_wf_init_unused_v : CmdWord.wf 0x1100000000 = false := by decide
theorem test_wf_fill_unused_a : CmdWord.wf 0x3101000000 = false := by decide
theorem test_wf_pixel_unused_c : CmdWord.wf 0x2100000100 = false := by decide
theorem test_wf_hline_unused_d : CmdWord.wf 0x41020609FF = false := by decide
theorem test_wf_asm_256 : Asm.wf (.pixel 256 0 true) = false := by decide
theorem test_wf_asm_negative : Asm.wf (.rect 0 0 (-1) 3 true) = false := by decide
theorem test_assemble_refuses : assemble (.hline 2 6 300 true) = none := by decide

/-! ## Decoding: bits 39 to 0 as the pattern column of R64 lays them out -/

theorem test_decode_init : decode 0b0001000000000000000000000000000000000000#40 = .ok .init := by rfl
theorem test_decode_pixel :
    decode 0b0010000100000101000010100000000000000000#40 = .ok (.pixel 5 10 true) := by rfl
theorem test_decode_fill : decode 0b0011000100000000000000000000000000000000#40 = .ok (.fill true) := by rfl
theorem test_decode_hline :
    decode 0b0100000100000010000001100000100100000000#40 = .ok (.hline 2 6 9 true) := by rfl
theorem test_decode_vline :
    decode 0b0101000100000011000001100000101000000000#40 = .ok (.vline 3 6 10 true) := by rfl
theorem test_decode_line :
    decode 0b0110000100000000000000000000011100000011#40 = .ok (.line 0 0 7 3 true) := by rfl
theorem test_decode_rect :
    decode 0b0111000000000011000000110111101000111010#40 = .ok (.rect 3 3 122 58 false) := by rfl
theorem test_decode_star :
    decode 0b1000000100010100000111100000000100000010#40 = .ok (.star 20 30 1 2 true) := by rfl
theorem test_decode_heart :
    decode 0b1001000000010100000111100000000100000010#40 = .ok (.heart 20 30 1 2 false) := by rfl
theorem test_decode_square :
    decode 0b1010000100010100000111100000001100000011#40 = .ok (.square 20 30 3 3 true) := by rfl
theorem test_decode_frameOut : decode 0b1011000000000000000000000000000000000000#40 = .ok .frameOut := by rfl

/-- V9i, V9c, V9: one word of each kind that is refused, by its name. -/
theorem test_decode_refuses :
    decode 0x0000000000 = .error .undefinedOpcode ∧ decode 0x6300000703 = .error .reservedBits ∧
      decode 0x41020609FF = .error .unusedField := ⟨rfl, rfl, rfl⟩

/-- 30_encoding.md R68, P3: the words of two lines of assembler. -/
theorem test_assemble :
    assemble (.line 0 0 7 3 true) = some 0x6100000703 ∧ assemble (.plainRect 3 3 122 58 false) = some 0x7003037A3A := by
  decide

theorem test_table_word : decodeTableWord 40 0xA1141E0303 = some (.square 20 30 3 3 true) := by decide

/-! ## A state after INIT, and what is read back from an outcome -/

/-- FB with the marker and every plane cell `b`. -/
def plane (b : Byte) : Memory := (0, Config.dataMarker) :: (List.range' 1 1024).map fun i => (i, b)

/-- The state of R80's examples: just after INIT. -/
def ready : State := { State.reset with fb := plane 0 }

/-- The same with every pixel set, as after FILL 1. -/
def full : State := { State.reset with fb := plane 0xFF }

/-- FRAME_OUT waiting with byte 2 on offer to a consumer that takes no more. -/
def waiting : State :=
  { ready with engine := .emitting 2, inFlight := [Config.dataMarker, 0], consumer := .upTo 0 }

def cell (r : Result) (i : Nat) : Option Byte :=
  match r with
  | .next t => t.fb.read i
  | _ => none

def rangeErrOf (r : Result) : Option Bool :=
  match r with
  | .next t => some t.rangeErr
  | _ => none

def stopsAt (r : Result) : Option Nat :=
  match r with
  | .fault (.uninitialisedRead i) => some i
  | _ => none

theorem read_plane_cells (b : Byte) (a n i : Nat) :
    Memory.read ((List.range' a n).map fun i => (i, b)) i = if a ≤ i ∧ i < a + n then some b else none := by
  induction n generalizing a with
  | zero => simp
  | succ n ih =>
    rw [List.range'_succ, List.map_cons, Memory.read_cons, ih]
    by_cases h : a = i
    · simp [h]
    · rw [if_neg h]
      congr 1
      simp only [eq_iff_iff]
      omega

theorem wf_plane_cells (b : Byte) (a n : Nat) (h : a + n ≤ Config.bufLen) :
    Memory.wf ((List.range' a n).map fun i => (i, b)) = true := by
  induction n generalizing a with
  | zero => rfl
  | succ n ih =>
    rw [List.range'_succ, List.map_cons, Memory.wf_cons]
    refine ⟨by omega, fun c hc => ?_, ih (a + 1) (by omega)⟩
    obtain ⟨i, hi, rfl⟩ := List.mem_map.1 hc
    have := (List.mem_range'_1.1 hi).1
    simp only
    omega

theorem read_plane (b : Byte) {i : Nat} (h1 : 1 ≤ i) (h2 : i ≤ 1024) : (plane b).read i = some b := by
  have h0 : ¬ 0 = i := by omega
  rw [plane, Memory.read_cons, if_neg h0, read_plane_cells, if_pos (by omega)]

theorem memory_marker (b : Byte) : (plane b).read 0 = some Config.dataMarker := rfl

theorem initialised_plane (b : Byte) (s : State) : { s with fb := plane b }.initialised := by
  intro i hi
  have hi' : i < 1025 := hi
  rcases Nat.eq_zero_or_pos i with rfl | h
  · exact ⟨Config.dataMarker, rfl⟩
  · exact ⟨b, read_plane b h (by omega)⟩

theorem initialised_of_fb {s : State} {b : Byte} (h : s.fb = plane b) : s.initialised := by
  intro i hi
  have := initialised_plane b State.reset i hi
  unfold State.holds at *
  rwa [h]

theorem wf_plane (b : Byte) : (plane b).wf = true := by
  refine Memory.wf_cons.2 ⟨by decide, fun c hc => ?_, wf_plane_cells b 1 1024 (by decide)⟩
  obtain ⟨i, hi, rfl⟩ := List.mem_map.1 hc
  exact (List.mem_range'_1.1 hi).1

theorem ready_initialised : ready.initialised := initialised_plane 0 State.reset

theorem inv_plane (b : Byte) : { State.reset with fb := plane b }.Inv where
  canonical := wf_plane b
  wholeOrEmpty := .inr (initialised_plane b _)
  marker := fun _ h => (Option.some.inj h).symm
  recorded := fun h => by simp [State.reset] at h
  framesWhole := fun _ h => by simp [State.reset] at h
  cutFramesShort := fun _ h => by simp [State.reset] at h
  idleStream := fun _ => rfl
  busyStream := fun _ h => by simp [State.reset] at h

theorem ready_inv : ready.Inv := inv_plane 0

theorem waiting_inv : waiting.Inv where
  canonical := wf_plane 0
  wholeOrEmpty := .inr (initialised_of_fb (b := 0) rfl)
  marker := fun _ h => (Option.some.inj h).symm
  recorded := fun h => by simp [waiting, ready, State.reset] at h
  framesWhole := fun _ h => by simp [waiting, ready, State.reset] at h
  cutFramesShort := fun _ h => by simp [waiting, ready, State.reset] at h
  idleStream := fun h => by simp [waiting] at h
  busyStream := fun i h => by
    obtain rfl : 2 = i := by simpa [waiting] using h
    refine ⟨by decide, initialised_of_fb (b := 0) rfl, rfl, fun j hj => ?_⟩
    interval_cases j
    · rfl
    · exact read_plane 0 (by decide) (by decide)

/-- Everything is readable on an initialised FB. -/
theorem readable_of_initialised {s : State} (h : s.initialised) (P : Int → Int → Prop) : s.readable P :=
  fun _ _ _ hg => h _ (cellIndex_lt hg)

/-- A drawing command completes on an initialised FB. -/
theorem draws {i : Instr} (h1 : i ≠ .init) (h2 : i ≠ .frameOut) {s : State} (h : s.initialised) :
    ∃ t, exec i s = .next t := by
  obtain ⟨v, hv⟩ := exec_drawing h1 h2
  rw [hv]
  exact drawPoints_completes (readable_of_initialised h _)

/-! ## Worked examples -/

/-- R80, V26: INIT on an FB that holds no values. -/
theorem test_init : cell (exec .init State.reset) 0 = some Config.dataMarker := by
  obtain ⟨m, hm, hr, -⟩ := execInit_next State.reset
  rw [show exec .init State.reset = _ from hm]
  exact hr 0

/-- R81, V17. -/
theorem test_pixel_sets : cell (exec (.pixel 5 10 true) ready) 42 = some 0x04 := by decide +kernel

/-- V24: a pixel is cleared and the other seven are kept. -/
theorem test_pixel_clears : cell (exec (.pixel 5 10 false) full) 42 = some 0xFB := by decide +kernel

/-- V21, V73. -/
theorem test_pixel_out_of_grid : rangeErrOf (exec (.pixel 0 64 true) State.reset) = some true ∧
    rangeErrOf (exec (.pixel 128 64 false) ready) = some true := by decide +kernel

/-- V28. -/
theorem test_pixel_uninitialised : stopsAt (exec (.pixel 0 0 true) State.reset) = some 1 := by decide +kernel

/-- R102, V46. -/
theorem test_hline : (List.map (cell (exec (.hline 2 6 9 true) ready)) [10, 18, 50, 58]) =
    [some 0, some 0x02, some 0x02, some 0] := by decide +kernel

/-- V46a: an empty range draws nothing. -/
theorem test_hline_empty : exec (.hline 6 2 9 true) ready = .next ready := rfl

/-- R103, V47. -/
theorem test_vline : (List.map (cell (exec (.vline 3 6 10 true) ready)) [25, 26, 27]) =
    [some 0xC0, some 0x07, some 0] := by decide +kernel

/-- R104, V30. -/
theorem test_line : (List.map (cell (exec (.line 0 0 7 3 true) ready)) [1, 9, 17, 25, 33, 41, 49, 57]) =
    [some 1, some 1, some 2, some 2, some 4, some 4, some 8, some 8] := by decide +kernel

/-- V36: a line upward and to the right, steep. -/
theorem test_line_steep : linePoints 0 5 4 0 = [⟨0, 5⟩, ⟨1, 4⟩, ⟨2, 3⟩, ⟨2, 2⟩, ⟨3, 1⟩, ⟨4, 0⟩] := by decide +kernel

/-- R100, V41. -/
theorem test_rect : (List.map (cell (exec (.rect 0 0 3 3 true) ready)) [1, 9, 17, 25]) =
    [some 0x07, some 0x05, some 0x07, some 0] := by decide +kernel

/-- V45a: with width 0 the right edge is the column before the left one, here off the grid. -/
theorem test_rect_width_0 : cell (exec (.rect 2 0 0 4 true) ready) 1 = some 0x3C ∧
    rangeErrOf (exec (.rect 2 0 0 4 true) ready) = some true := by decide +kernel

/-- R123, V50a. -/
theorem test_star : (List.map (cell (exec (.star 20 30 1 1 true) ready)) [235, 243, 251]) =
    [some 0x10, some 0x38, some 0x10] := by decide +kernel

/-- V59: the star at the corner is clipped. -/
theorem test_star_clipped : cell (exec (.star 0 0 1 1 true) ready) 1 = some 0x03 ∧
    rangeErrOf (exec (.star 0 0 1 1 true) ready) = some true := by decide +kernel

/-- R125, V51a. -/
theorem test_heart : (List.map (cell (exec (.heart 20 30 1 1 true) ready)) [227, 235, 243, 251, 259]) =
    [some 0x10, some 0x28, some 0x50, some 0x28, some 0x10] := by decide +kernel

/-- V51: samples at offsets 0 and 6 only. -/
theorem test_heart_samples : walkOffsets 6 11 = [0, 6] := by decide +kernel

/-- R127, V52a. -/
theorem test_square : (List.map (cell (exec (.square 20 30 3 3 true) ready)) [243, 251, 259]) =
    [some 0x70, some 0x50, some 0x70] := by decide +kernel

/-- V52b: far-edge anchors before the near ones when the size is under 3. -/
theorem test_square_small : (List.map (cell (exec (.square 20 30 1 1 true) ready)) [227, 235, 243, 251, 259]) =
    [some 0x70, some 0x50, some 0x7C, some 0x54, some 0x7C] := by decide +kernel

/-- R82, V27's first step: FILL 1 sets every bit; here the points it visits, first and last. -/
theorem test_fill_points : fillPoints.head? = some ⟨0, 0⟩ ∧ fillPoints.getLast? = some ⟨127, 63⟩ := by decide +kernel

/-- R157: FRAME_OUT to a consumer that takes three bytes waits with byte 3 on offer. -/
theorem test_frameOut_waits : (match exec .frameOut { ready with consumer := .upTo 3 } with
    | .next t => (t.busy, t.inFlight.length, foData t, foLast t)
    | _ => (false, 0, none, false)) = (true, 3, some 0, false) := by decide +kernel

/-- V28. -/
theorem test_frameOut_uninitialised : stopsAt (exec .frameOut State.reset) = some 0 := by decide +kernel

/-- V71: an illegal word. -/
theorem test_illegal_word : (match step (State.reset.withFetchWord 40 0x0000000000) with
    | .next t => (t.illegalErr, t.rangeErr, t.faultRecorded, t.words, t.fb)
    | _ => (false, true, false, [], [])) = (true, false, true, [], []) := by decide +kernel

/-- P1, step 6, as a step of the machine: the word is accepted and RANGE_ERR set. -/
theorem test_step_pixel : rangeErrOf (step (ready.withFetchWord 40 0x2180000000)) = some true := by decide +kernel

/-! ## Witnesses: a state and operands that meet the hypotheses of each statement -/

theorem witness_EncodeOfDecode : decode 0xA1141E0303 = .ok (.square 20 30 3 3 true) := rfl

theorem witness_OpcodeMapSelects :
    (⟨.line, 0x6000000000, 0xFE00000000⟩ : Row) ∈ opcodeMap ∧
    (0x61FFFFFFFF#40 &&& 0xFE00000000 = 0x6000000000) ∧ (0x1000000000#40 &&& 0xFFFFFFFFFF = 0x1000000000) ∧
    (0x21FFFF0000#40 &&& 0xFE0000FFFF = 0x2000000000) ∧ (0x3100000000#40 &&& 0xFEFFFFFFFF = 0x3000000000) ∧
    (0x41FFFFFF00#40 &&& 0xFE000000FF = 0x4000000000) ∧ (0x5000000000#40 &&& 0xFE000000FF = 0x5000000000) ∧
    (0x71FFFFFFFF#40 &&& 0xFE00000000 = 0x7000000000) ∧ (0x8000000000#40 &&& 0xFE00000000 = 0x8000000000) ∧
    (0x9000000001#40 &&& 0xFE00000000 = 0x9000000000) ∧ (0xA100000000#40 &&& 0xFE00000000 = 0xA000000000) ∧
    (0xB000000000#40 &&& 0xFFFFFFFFFF = 0xB000000000) ∧
    (∀ r ∈ opcodeMap, 0xF1FFFFFFFF#40 &&& r.mask ≠ r.pattern) := by decide

theorem witness_UnusedFieldsZero :
    decode 0x1000000000 = .ok .init ∧ Instr.opcode .init ∈ [Opcode.init, .frameOut] ∧
    decode 0x3100000000 = .ok (.fill true) ∧ decode 0x21FFFF0000 = .ok (.pixel 255 255 true) ∧
    decode 0x41FFFFFF00 = .ok (.hline 255 255 255 true) ∧
    Instr.opcode (.hline 255 255 255 true) ∈ [Opcode.hline, .vline] :=
  ⟨rfl, by decide, rfl, rfl, rfl, by decide⟩

/-- A state with one word on the command port. -/
def offering (w : CmdWord) : State := { ready with words := [w] }

theorem witness_IllegalWordOnlyRaises :
    (offering 0x2300000000).resetNext = false ∧ (offering 0x2300000000).afterHost.engine = .idle ∧
    (offering 0x2300000000).afterHost.words = [0x2300000000] ∧ (∃ e, decode 0x2300000000 = .error e) ∧
    (0xF000000000#40).extractLsb' 36 4 ∈ [0x0#4, 0xC, 0xD, 0xE, 0xF] ∧
    (∃ o : Opcode, o.number = (0x2100000001#40).extractLsb' 36 4 ∧
      CmdWord.unusedZero 0x2100000001#40 o.format = false) :=
  ⟨rfl, rfl, rfl, ⟨_, rfl⟩, by decide, ⟨.pixel, by decide⟩⟩

theorem witness_PlainRectIsRect : assemble (.plainRect 3 3 122 58 true) = some 0x7103037A3A := by decide

theorem witness_DisassembleOfAssemble :
    assemble (.vline 255 0 63 false) = some 0x50FF003F00 ∧ Asm.wf (.vline 256 0 63 false) = false := by decide

theorem witness_StepKeepsInvariant : ready.Inv ∧ step ready = .next ready := ⟨ready_inv, rfl⟩

theorem witness_ResetFromAnyState :
    { waiting with moves := [.reset, .readStatus] }.moves = .reset :: [.readStatus] ∧
    { waiting with moves := [.reset, .readStatus] }.engine = .emitting 2 := ⟨rfl, rfl⟩

theorem witness_StepExecutesDecodedWord :
    { ready with moves := [.issue 0x2105050000] }.resetNext = false ∧
    { ready with moves := [.issue 0x2105050000] }.afterHost.engine = .idle ∧
    { ready with moves := [.issue 0x2105050000] }.afterHost.words = [0x2105050000] ∧
    decode 0x2105050000 = .ok (.pixel 5 5 true) := ⟨rfl, rfl, rfl, rfl⟩

theorem witness_FetchWordRunsNext : decodeTableWord 40 0xB000000000 = some .frameOut := by decide

theorem witness_IdleWithoutWordDoesNothing :
    ready.resetNext = false ∧ ready.afterHost.engine = .idle ∧ ready.afterHost.words = [] := ⟨rfl, rfl, rfl⟩

theorem waiting_stays : step waiting = .next waiting := by
  rw [step_of_not_reset (s := waiting) rfl]
  have h : resumeFrame 2 waiting = _ :=
    emitFrom_waits (s := waiting) (i := 2) (n := 0) (bs := []) rfl (by decide) (by decide) (fun j hj => by omega)
      (initialised_of_fb (s := waiting) (b := 0) rfl 2 (by decide)) rfl
  exact h

theorem witness_NoCommandDuringFrame :
    waiting.resetNext = false ∧ waiting.afterHost.engine = .emitting 2 ∧ step waiting = .next waiting :=
  ⟨rfl, rfl, waiting_stays⟩

theorem witness_FrameOutputPort : waiting.Inv ∧ waiting.engine = .emitting 2 ∧ ready.Inv ∧ ready.engine = .idle :=
  ⟨waiting_inv, rfl, ready_inv, rfl⟩

theorem witness_AddressDecoder :
    ((0 : Int) ≤ 127 ∧ (127 : Int) < 128 ∧ (0 : Int) ≤ 63 ∧ (63 : Int) < 64) ∧
    cellIndex 127 63 = cellIndex 127 63 ∧ cellBit 127 63 = cellBit 127 63 ∧ 1 ≤ 1024 ∧ 7 ≤ 7 := by decide

theorem witness_InverseAddressMap :
    inGrid (pixelX 1024) (pixelY 1024 7) = true ∧ inGrid (pixelX 1) (pixelY 1 0) = true ∧ inGrid 127 63 = true := by
  decide

theorem witness_PixelPacker :
    inGrid 127 63 = true ∧ ready.fb.read (cellIndex 127 63) = some 0 ∧ ((0 : Byte).getLsbD (cellBit 127 63) = false) ∧
    ¬ ((0 : Int) ≤ 128 ∧ (128 : Int) < 128 ∧ (0 : Int) ≤ 0 ∧ (0 : Int) < 64) := by
  have h : ready.fb.read (cellIndex 127 63) = some 0 := read_plane 0 (by decide) (by decide)
  exact ⟨by decide, h, by decide, by decide⟩

theorem witness_RangeGuardGoesOn :
    ((-1 : Int) < 0) ∧ ((128 : Int) ≥ 128) ∧ ((256 : Int) ≥ 128) ∧ ((64 : Int) ≥ 64) := by decide

theorem witness_FaultsExactlyOnUnwrittenCells :
    (∃ p ∈ drawnPoints (.pixel 0 0 true), inGrid p.x p.y = true ∧ State.reset.fb.read (cellIndex p.x p.y) = none) ∧
    (∀ p ∈ drawnPoints (.pixel 0 0 true), inGrid p.x p.y = true → ready.holds (cellIndex p.x p.y)) ∧
    State.reset.fb.read 0 = none :=
  ⟨⟨_, List.mem_singleton_self _, by decide, rfl⟩, fun _ _ hg => ready_initialised _ (cellIndex_lt hg), rfl⟩

theorem witness_InitialisedBufferNeverFaults : ready.Inv ∧ ready.initialised ∧ ready.resetNext = false :=
  ⟨ready_inv, ready_initialised, rfl⟩

theorem pixel_unwritten : exec (.pixel 0 0 true) State.reset = .fault (.uninitialisedRead 1) := by
  have h := pixelWrite_unwritten (x := zext 0) (y := zext 0) (v := true) (s := State.reset) (by decide) (by decide)
  rw [show cellIndex (zext 0) (zext 0) = 1 by decide] at h
  exact h

theorem witness_MarkerCellUntouched :
    (∃ t, exec (.pixel 0 0 true) ready = .next t) ∧ (∃ t, pixelWrite 0 0 true ready = .next t) ∧
    (∀ k, k ≠ 0 → (ready.fb.write 0 7).read k = ready.fb.read k) ∧
    exec (.pixel 0 0 true) State.reset = .fault (.uninitialisedRead 1) :=
  ⟨draws (by decide) (by decide) ready_initialised,
    ⟨_, pixelWrite_inGrid (x := 0) (y := 0) (by decide) (read_plane 0 (by decide) (by decide))⟩,
    fun _ hk => Memory.read_write_other _ _ (Ne.symm hk), pixel_unwritten⟩

theorem witness_DrawingDependsOnSetOnly :
    ready.fb.wf = true ∧ (∀ p, p ∈ [(⟨1, 2⟩ : Point), ⟨-1, 2⟩, ⟨1, 2⟩] ↔ p ∈ [(⟨-1, 2⟩ : Point), ⟨1, 2⟩]) ∧
    ∃ t, drawPoints [⟨1, 2⟩, ⟨-1, 2⟩, ⟨1, 2⟩] true ready = .next t :=
  ⟨wf_plane 0, fun p => by simp; tauto, drawPoints_completes (readable_of_initialised ready_initialised _)⟩

theorem witness_DrawingResults (P : Int → Int → Prop) : ready.readable P :=
  readable_of_initialised ready_initialised P

theorem witness_PixelResult : ready.readable fun px py => px = (127#8).toNat ∧ py = (63#8).toNat :=
  witness_DrawingResults _

theorem witness_FillResult : (ready.readable fun _ _ => True) ∧ ∀ i, State.reset.fb.read i = none :=
  ⟨witness_DrawingResults _, fun _ => rfl⟩

theorem witness_PixelRoundTrip :
    (127#8).toNat < 128 ∧ (63#8).toNat < 64 ∧ ready.holds (cellIndex (127#8).toNat (63#8).toNat) ∧
    ready.pixel (127#8).toNat (63#8).toNat = some false :=
  ⟨by decide, by decide, ready_initialised _ (by decide), by
    have : ready.fb.read (cellIndex (127#8).toNat (63#8).toNat) = some 0 := read_plane 0 (by decide) (by decide)
    simp only [State.pixel, this]
    rfl⟩

theorem witness_FillClearsToInit : ready.Inv ∧ ready.initialised := ⟨ready_inv, ready_initialised⟩

theorem witness_HlineResult :
    ready.readable (fun px py => ((126#8).toNat : Int) ≤ px ∧ px ≤ (129#8).toNat ∧ py = (0#8).toNat) ∧
    (2#8).toNat < (6#8).toNat := ⟨witness_DrawingResults _, by decide⟩

theorem witness_VlineResult :
    ready.readable (fun px py => px = (3#8).toNat ∧ ((0#8).toNat : Int) ≤ py ∧ py ≤ (63#8).toNat) ∧
    (6#8).toNat < (10#8).toNat := ⟨witness_DrawingResults _, by decide⟩

theorem witness_LineResult :
    ready.readable fun px py =>
      ∃ err, LinePlots (125#8).toNat (60#8).toNat (130#8).toNat (66#8).toNat px py err := witness_DrawingResults _

theorem witness_LineSignOnZeroDelta :
    (4#8 = 4#8) ∧ lineStart 4 9 4 6 ∈ lineTrace (lineParams 4 9 4 6) 1 (lineStart 4 9 4 6) ∧
    lineStart 2 5 6 5 ∈ lineTrace (lineParams 2 5 6 5) 1 (lineStart 2 5 6 5) := by decide +kernel

theorem witness_LineTerminates :
    (linePoints 0 0 7 3)[0]? = some ⟨0, 0⟩ ∧ (linePoints 0 0 7 3)[1]? = some ⟨1, 0⟩ ∧
    (⟨7, 3⟩ : Point) ∈ linePoints 0 0 7 3 := by decide +kernel

theorem witness_LineTerminates_inGrid :
    (127#8).toNat < 128 ∧ (63#8).toNat < 64 ∧ (∀ p ∈ linePoints 125 60 127 63, ready.pixel p.x p.y = some false) ∧
    ∃ t, exec (.line 125 60 127 63 true) ready = .next t :=
  ⟨by decide, by decide, by decide +kernel, draws (by decide) (by decide) ready_initialised⟩

theorem witness_RectResult :
    ready.readable fun px py =>
      (((1#8).toNat : Int) ≤ px ∧ px < (1#8).toNat + (0#8).toNat ∧
        (py = (2#8).toNat ∨ py = ((2#8).toNat : Int) + (4#8).toNat - 1)) ∨
      (((2#8).toNat : Int) ≤ py ∧ py < (2#8).toNat + (4#8).toNat ∧
        (px = (1#8).toNat ∨ px = ((1#8).toNat : Int) + (0#8).toNat - 1)) := witness_DrawingResults _

/-- A 3×3 outline at the far corner, the outlines of width 0 and of height 0 beside an edge, and the sizes 1, 2 and 0
where the clauses meet: in the grid and clear. -/
theorem witness_OutlinePixelCount :
    (∀ p ∈ drawnPoints (.rect 61 125 3 3 true), inGrid p.x p.y = true ∧ ready.pixel p.x p.y = some false) ∧
    (∀ p ∈ drawnPoints (.rect 2 1 0 4 true), inGrid p.x p.y = true ∧ ready.pixel p.x p.y = some false) ∧
    (∀ p ∈ drawnPoints (.rect 2 1 4 0 true), inGrid p.x p.y = true ∧ ready.pixel p.x p.y = some false) ∧
    (∀ p ∈ drawnPoints (.rect 2 1 1 1 true), inGrid p.x p.y = true ∧ ready.pixel p.x p.y = some false) ∧
    (∀ p ∈ drawnPoints (.rect 62 126 2 2 true), inGrid p.x p.y = true ∧ ready.pixel p.x p.y = some false) ∧
    (∀ p ∈ drawnPoints (.rect 0 0 0 0 true), inGrid p.x p.y = true ∧ ready.pixel p.x p.y = some false) := by
  decide +kernel

theorem witness_WalkSamples : 1 ≤ 5 ∧ (1 : Int) ≤ 3 := by decide

theorem witness_CoordinateBounds :
    (⟨254, 0⟩ : Point) ∈ walkPoints (zext 0) (zext 255) (zext 0) (zext 1) 5 1 dotStamp ∧
    (⟨-1, 0⟩ : Point) ∈ walkPoints (zext 0) (zext 0) (zext 0) (zext 1) 6 1 dotStamp ∧
    (⟨0, -3⟩ : Point) ∈ walkPoints (zext 0) (zext 0) (zext 1) (zext 0) 4 3 dotStamp ∧
    (⟨-3, 0⟩ : Point) ∈ drawnPoints (.square 0 0 0 1 true) := by decide +kernel

theorem witness_StarResult :
    ready.readable fun x y => ∃ px py, WalkAnchor (0#8).toNat (0#8).toNat (128#8).toNat (64#8).toNat 5 1 px py ∧
      ((x = px ∧ y = py) ∨ (x = px ∧ y = py - 1) ∨ (x = px ∧ y = py + 1) ∨ (x = px - 1 ∧ y = py) ∨
        (x = px + 1 ∧ y = py)) := witness_DrawingResults _

theorem witness_HeartResult :
    ready.readable fun x y => ∃ px py, WalkAnchor (0#8).toNat (0#8).toNat (128#8).toNat (64#8).toNat 6 1 px py ∧
      ((x = px ∧ y = py) ∨ (x = px - 1 ∧ y = py - 1) ∨ (x = px + 1 ∧ y = py - 1) ∨ (x = px - 2 ∧ y = py) ∨
        (x = px + 2 ∧ y = py) ∨ (x = px - 1 ∧ y = py + 1) ∨ (x = px + 1 ∧ y = py + 1) ∨ (x = px ∧ y = py + 2)) :=
  witness_DrawingResults _

theorem witness_SquareResult :
    ready.readable fun x y => ∃ px py, WalkAnchor (20#8).toNat (30#8).toNat (3#8).toNat (3#8).toNat 4 3 px py ∧
      px ≤ x ∧ x ≤ px + 2 ∧ py ≤ y ∧ y ≤ py + 2 ∧ ¬ (x = px + 1 ∧ y = py + 1) := witness_DrawingResults _

theorem witness_StampMarginsKeepRangeErr :
    (1 ≤ (1#8).toNat ∧ (1#8).toNat + (126#8).toNat ≤ 127 ∧ (1#8).toNat + (62#8).toNat ≤ 63 ∧
      ∃ t, exec (.star 1 1 126 62 true) ready = .next t) ∧
    (2 ≤ (2#8).toNat ∧ (2#8).toNat + (124#8).toNat ≤ 126 ∧ (1#8).toNat + (61#8).toNat ≤ 62 ∧
      ∃ t, exec (.heart 1 2 124 61 true) ready = .next t) ∧
    (3 ≤ (128#8).toNat ∧ (128#8).toNat % 4 ∈ [0, 3] ∧ (63#8).toNat % 4 ∈ [0, 3] ∧ (0#8).toNat + (128#8).toNat ≤ 128 ∧
      (1#8).toNat + (63#8).toNat ≤ 64 ∧ ∃ t, exec (.square 1 0 128 63 true) ready = .next t) :=
  ⟨⟨by decide, by decide, by decide, draws (by decide) (by decide) ready_initialised⟩,
    ⟨by decide, by decide, by decide, draws (by decide) (by decide) ready_initialised⟩,
    ⟨by decide, by decide, by decide, by decide, by decide, draws (by decide) (by decide) ready_initialised⟩⟩

theorem witness_FrameOutResult :
    ready.engine = .idle ∧ ready.inFlight = [] ∧ ready.initialised ∧ ready.consumer.takes 1025 = true ∧
    { ready with consumer := .upTo 1025 }.consumer.takes 1025 = true ∧
    { ready with consumer := .upTo 1024 }.consumer.takes 1025 = false ∧
    { ready with consumer := .upTo 1024 }.initialised ∧ State.reset.fb.read 0 = none :=
  ⟨rfl, rfl, ready_initialised, rfl, rfl, rfl, initialised_of_fb (b := 0) rfl, rfl⟩

theorem witness_FrameOutWaitsForConsumer :
    1024 < 1025 ∧ { ready with consumer := .upTo 1024 }.initialised ∧
    { ready with consumer := .upTo 1024 }.consumer = .upTo 1024 ∧ { ready with consumer := .upTo 1024 }.moves = [] :=
  ⟨by decide, initialised_of_fb (b := 0) rfl, rfl, rfl⟩

/-- FRAME_OUT gives a next state on `ready`, whether its consumer takes no byte or all. -/
theorem frameOut_next :
    (∃ t, exec .frameOut { ready with consumer := .upTo 0 } = .next t) ∧
    ∃ u, exec .frameOut { ready with consumer := .always } = .next u := by
  constructor
  · exact ⟨_, emitFrom_waits (i := 0) (n := 0) (bs := []) rfl (by decide) (by decide) (fun j hj => by omega)
      (ready_initialised 0 (by decide)) rfl⟩
  have hr : ∀ j, j < 1025 → ({ ready with consumer := .always, inFlight := [] } : State).fb.read (0 + j) =
      ((List.range 1025).map fun i => if i = 0 then Config.dataMarker else 0)[j]? := fun j hj => by
    rw [Nat.zero_add]
    rw [List.getElem?_map, List.getElem?_range hj]
    rcases Nat.eq_zero_or_pos j with rfl | h
    · simp only [Option.map_some, if_true]
      exact memory_marker 0
    · simp only [Option.map_some, Nat.ne_of_gt h, if_false]
      exact read_plane 0 h (by omega)
  exact ⟨_, emitFrom_whole (i := 0) (by simp) (by decide) hr rfl⟩

theorem witness_PausedFrameIsWholeFrame :
    0 < 1025 ∧ ready.moves = [] ∧ ready.initialised ∧
    (∃ t, exec .frameOut { ready with consumer := .upTo 0 } = .next t) ∧
    ∃ u, exec .frameOut { ready with consumer := .always } = .next u :=
  ⟨by decide, rfl, ready_initialised, frameOut_next⟩

theorem witness_CommandsAndFlags :
    (∃ t, exec .init ready = .next t) ∧ (∃ t, exec (.fill true) ready = .next t) ∧
    (∃ t, exec (.pixel 0 0 true) { ready with rangeErr := true } = .next t) ∧
    ∃ t, exec .frameOut { ready with consumer := .always } = .next t :=
  ⟨⟨_, (execInit_next ready).choose_spec.1⟩, draws (by decide) (by decide) ready_initialised,
    draws (by decide) (by decide) (initialised_of_fb (b := 0) rfl), frameOut_next.2⟩

theorem pixel_offGrid (s : State) : exec (.pixel 128 0 true) s = .next (raise .rangeError s) := by
  have h := pixelWrite_outGrid (x := zext 128) (y := zext 0) (v := true) (s := s) (by decide)
  exact h

/-- P1: the word of PIXEL 128, 0, 1, and an illegal word, on any idle block. -/
theorem step_offGrid {s : State} (hm : s.moves = []) (he : s.engine = .idle) (hw : s.words = [0x2180000000]) :
    step s = .next (raise .rangeError (latch 0x2180000000 { s with words := [] })) := by
  simp only [step, turn, hm, engineTurn, he, hw, accept]
  rw [show decode 0x2180000000 = .ok (.pixel 128 0 true) from rfl]
  exact pixel_offGrid _

theorem step_illegal {s : State} (hm : s.moves = []) (he : s.engine = .idle) (hw : s.words = [0xC000000000]) :
    step s = .next (raise .illegalCommand { s with words := [] }) := by
  simp only [step, turn, hm, engineTurn, he, hw]
  rfl

/-- V72: with both flags set, INIT clears both. -/
theorem witness_FlagsClearedOnlyByResetOrInit :
    ∃ t, step { offering 0x1000000000 with rangeErr := true, illegalErr := true } = .next t ∧ t.rangeErr = false ∧
      t.illegalErr = false := by
  obtain ⟨m, hm, -⟩ :=
    execInit_next (latch 0x1000000000 { ready with words := [], rangeErr := true, illegalErr := true })
  refine ⟨_, Eq.trans ?_ hm, rfl, rfl⟩
  rw [step_of_not_reset (by rfl)]
  rfl

theorem witness_OneWordOneCause :
    (∃ t, step (offering 0x2180000000) = .next t ∧ t.rangeErr = true ∧ t.illegalErr = false) ∧
    (∃ t, step (offering 0xC000000000) = .next t ∧ t.rangeErr = false ∧ t.illegalErr = true) ∧
    (offering 0xC000000000).afterHost.words = [0xC000000000] ∧ decode 0xC000000000 = .error .undefinedOpcode ∧
    (∃ t, step { offering 0x2180000000 with illegalErr := true } = .next t ∧ t.illegalErr = true) ∧
    decode 0x2180000000 = .ok (.pixel 128 0 true) :=
  ⟨⟨_, step_offGrid rfl rfl rfl, rfl, rfl⟩, ⟨_, step_illegal rfl rfl rfl, rfl, rfl⟩, rfl, rfl,
    ⟨_, step_offGrid rfl rfl rfl, rfl⟩, rfl⟩

theorem witness_GhostBitNeverCleared :
    (∃ t, step { ready with faultRecorded := true } = .next t) ∧
    (∃ t, step (offering 0x2180000000) = .next t ∧ t.rangeErr = true) ∧
    ∃ t, step (offering 0xC000000000) = .next t ∧ t.illegalErr = true := by
  refine ⟨⟨{ ready with faultRecorded := true }, ?_⟩, ⟨_, step_offGrid rfl rfl rfl, rfl⟩, ⟨_, step_illegal rfl rfl rfl, rfl⟩⟩
  rw [step_of_not_reset (by rfl)]
  rfl

theorem witness_NoCommandReadsAFlag :
    (∃ t, exec (.pixel 0 0 true) ready = .next t) ∧
    exec (.pixel 0 0 true) State.reset = .fault (.uninitialisedRead 1) :=
  ⟨draws (by decide) (by decide) ready_initialised, pixel_unwritten⟩

theorem witness_DrawingFrame :
    (∃ t, exec (.heart 0 0 128 64 true) { ready with rangeErr := true } = .next t) ∧
    ∀ p ∈ drawnPoints (.pixel 0 0 true), inGrid p.x p.y = true → 1024 ≠ cellIndex p.x p.y :=
  ⟨draws (by decide) (by decide) (initialised_of_fb (b := 0) rfl), by decide⟩

theorem witness_InitAndFrameOutFrame :
    (∃ t, exec .init State.reset = .next t) ∧ ∃ t, exec .frameOut { ready with consumer := .always } = .next t :=
  ⟨⟨_, (execInit_next State.reset).choose_spec.1⟩, frameOut_next.2⟩

end Sys2Proof.Tests
end

section
/-! PROOFS for 20_memory.md: the pixel packer (R45) and its range guard (R46). -/

namespace Sys2Proof.Machine

/-- Packing the value that the pixel has already gives the same cell (R45). -/
theorem packBit_of_getLsbD_eq {old : Byte} {b : Nat} {v : Bool} (h : old.getLsbD b = v) : packBit old b v = old := by
  refine BitVec.eq_of_getLsbD_eq fun j hj => ?_
  rw [packBit_getLsbD old v hj]
  split
  · rename_i hjb
    rw [hjb, h]
  · rfl

/-- Writing the value that a cell holds already changes no reading. -/
theorem Memory.read_write_of_read_eq {m : Memory} {i : Nat} {b : Byte} (h : m.read i = some b) (j : Nat) :
    (m.write i b).read j = m.read j := by
  rw [Memory.read_write]
  split
  · rename_i hij
    rw [← hij, h]
  · rfl

/-- RangeError sets STATUS.RANGE_ERR and the ghost bit, and nothing else (R158). -/
theorem raise_range_eq (s : State) : raise .rangeError s = { s with rangeErr := true, faultRecorded := true } := rfl

/-- A drawing that begins outside the grid is the drawing of its other points with RangeError raised (R46). -/
theorem drawPoints_cons_outGrid {p : Point} {ps : List Point} {v : Bool} {s : State} (h : inGrid p.x p.y = false) :
    drawPoints (p :: ps) v s = drawPoints ps v (raise .rangeError s) := by
  have hcons : drawPoints (p :: ps) v s = andThen (pixelWrite p.x p.y v s) (drawPoints ps v) := rfl
  rw [hcons, pixelWrite_outGrid h, andThen_next]

/-- Settles O22: in the grid by what PixelWrite does to a cell that holds a value, outside it by the range guard. -/
theorem pixelPacker : Obligations.PixelPacker := by
  intro x y v s
  constructor
  · intro hg old ho
    refine ⟨_, packBit old (cellBit x y) v, pixelWrite_inGrid hg ho, rfl, Memory.read_write_same _ _ _, rfl,
      ?_, ?_, ?_, ?_⟩
    · rw [packBit_getLsbD old v (cellBit_lt x y), if_pos rfl]
    · intro b hb hne
      rw [packBit_getLsbD old v hb, if_neg hne]
    · intro i hi
      exact Memory.read_write_other _ _ hi.symm
    · intro hv i
      rw [packBit_of_getLsbD_eq hv]
      exact Memory.read_write_of_read_eq ho i
  · intro hout
    have hg : inGrid x y = false := Bool.eq_false_iff.2 fun hg => hout (inGrid_iff.1 hg)
    rw [pixelWrite_outGrid hg, raise_range_eq]

/-- Settles O23: a pixel outside the grid raises RangeError and hands the state on to the rest of the list. -/
theorem rangeGuardGoesOn : Obligations.RangeGuardGoesOn := by
  intro x y v ps s hout
  have hg : inGrid x y = false := inGrid_false_iff.2 hout
  rw [drawPoints_cons_outGrid hg, raise_range_eq]

end Sys2Proof.Machine
end

section
/-! PROOFS for 30_encoding.md: the opcode map (R64), the unused fields (R62), the illegal words (R65, R144) and the
alias PLAIN_RECT (R69). -/

namespace Sys2Proof

/-! ### Opcode numbers and the rows of the opcode map -/

/-- No two commands share an opcode number (R64). -/
theorem Opcode.number_injective : Function.Injective Opcode.number := by
  intro o o'
  cases o <;> cases o' <;> decide

@[simp] theorem Opcode.ofNumber_number (o : Opcode) : Opcode.ofNumber o.number = some o := by
  cases o <;> rfl

theorem Opcode.number_of_ofNumber {n : OpField} {o : Opcode} (h : Opcode.ofNumber n = some o) : o.number = n := by
  simpa using List.find?_some h

/-- The opcode numbers that no command has (R65 a). -/
theorem Opcode.ofNumber_eq_none_iff : ∀ n : OpField, Opcode.ofNumber n = none ↔ n ∈ [0x0#4, 0xC, 0xD, 0xE, 0xF] := by
  decide

theorem exists_row_of_opcode (o : Opcode) : ∃ r ∈ opcodeMap, r.opcode = o := by
  cases o <;> decide

theorem row_ext_opcode : ∀ r ∈ opcodeMap, ∀ r' ∈ opcodeMap, r.opcode = r'.opcode → r = r' := by
  decide

theorem Row.selects_eq_true_iff (r : Row) (w : CmdWord) : r.selects w = true ↔ w &&& r.mask = r.pattern := beq_iff_eq

/-- The rows are disjoint: both fix the opcode field of the word, and the rows have different opcodes (R64). -/
theorem selects_unique {w : CmdWord} {r r' : Row} (hr : r ∈ opcodeMap) (hr' : r' ∈ opcodeMap)
    (hs : r.selects w = true) (hs' : r'.selects w = true) : r = r' := by
  obtain ⟨hop, -, -⟩ := (selects_iff hr w).1 hs
  obtain ⟨hop', -, -⟩ := (selects_iff hr' w).1 hs'
  exact row_ext_opcode r hr r' hr' (Opcode.number_injective (hop.symm.trans hop'))

/-! ### What decodes, and to what -/

/-- A word decodes exactly when it has the opcode of a command, RSV zero and that command's unused fields zero; it then
decodes to that command with its operand fields (R62, R64). -/
theorem decode_ok_iff {w : CmdWord} {i : Instr} :
    decode w = .ok i ↔
      ∃ o : Opcode, (CmdWord.op w = o.number ∧ CmdWord.rsv w = 0 ∧ CmdWord.unusedZero w o.format = true) ∧
        i = o.operands w := by
  constructor
  · intro h
    obtain ⟨r, hr, hs, hi⟩ := decode_ok h
    exact ⟨r.opcode, (selects_iff hr w).1 hs, hi⟩
  · rintro ⟨o, hf, rfl⟩
    obtain ⟨r, hr, rfl⟩ := exists_row_of_opcode o
    exact decode_of_selects hr ((selects_iff hr w).2 hf)

/-- A word is illegal exactly when it selects no row (R64). -/
theorem decode_error_iff_selects {w : CmdWord} :
    (∃ e, decode w = .error e) ↔ ∀ r ∈ opcodeMap, r.selects w = false := by
  constructor
  · rintro ⟨e, he⟩
    exact (decode_error he).1
  · intro h
    cases hd : decode w with
    | error e => exact ⟨e, rfl⟩
    | ok i =>
      obtain ⟨r, hr, hs, -⟩ := decode_ok hd
      exact absurd hs (by simp [h r hr])

/-- A word is illegal exactly when its opcode field names no command, or RSV is not zero, or a field that its command's
format does not use is not zero (R65). -/
theorem decode_error_iff_fields {w : CmdWord} :
    (∃ e, decode w = .error e) ↔
      Opcode.ofNumber (CmdWord.op w) = none ∨ CmdWord.rsv w ≠ 0 ∨
        ∃ o : Opcode, o.number = CmdWord.op w ∧ CmdWord.unusedZero w o.format = false := by
  constructor
  · rintro ⟨e, he⟩
    cases ho : Opcode.ofNumber (CmdWord.op w) with
    | none => exact .inl rfl
    | some o =>
      have hop := Opcode.number_of_ofNumber ho
      by_cases hrsv : CmdWord.rsv w = 0
      · refine .inr (.inr ⟨o, hop, Bool.eq_false_iff.2 fun hu => ?_⟩)
        have hok := decode_ok_iff.2 ⟨o, ⟨hop.symm, hrsv, hu⟩, rfl⟩
        simp [hok] at he
      · exact .inr (.inl hrsv)
  · intro h
    cases hd : decode w with
    | error e => exact ⟨e, rfl⟩
    | ok i =>
      obtain ⟨o, ⟨hop, hrsv, hu⟩, -⟩ := decode_ok_iff.1 hd
      rcases h with hnone | hbad | ⟨o', hop', hu'⟩
      · simp [hop] at hnone
      · exact absurd hrsv hbad
      · obtain rfl := Opcode.number_injective (hop'.trans hop)
        simp [hu] at hu'

/-- A word that matches a row written out decodes to that row's command with the fields of the word (R64). -/
theorem decode_of_match {o : Opcode} {p m w : CmdWord} (hr : (⟨o, p, m⟩ : Row) ∈ opcodeMap) (h : w &&& m = p) :
    decode w = .ok (o.operands w) :=
  decode_of_selects hr ((Row.selects_eq_true_iff _ w).2 h)

/-- Settles O3, by the disjointness of the rows and the decoding of a word that matches a row. -/
theorem opcodeMapSelects : Obligations.OpcodeMapSelects := by
  intro w
  refine ⟨?_, ?_, decode_of_match (o := .init) (by decide), decode_of_match (o := .pixel) (by decide),
    decode_of_match (o := .fill) (by decide), decode_of_match (o := .hline) (by decide),
    decode_of_match (o := .vline) (by decide), decode_of_match (o := .line) (by decide),
    decode_of_match (o := .rect) (by decide), decode_of_match (o := .star) (by decide),
    decode_of_match (o := .heart) (by decide), decode_of_match (o := .square) (by decide),
    decode_of_match (o := .frameOut) (by decide)⟩
  · intro r hr r' hr' h h'
    exact selects_unique hr hr' ((r.selects_eq_true_iff w).2 h) ((r'.selects_eq_true_iff w).2 h')
  · rw [decode_error_iff_selects]
    exact forall₂_congr fun r _ => by rw [ne_eq, ← Row.selects_eq_true_iff, Bool.not_eq_true]

/-! ### Unused fields -/

@[simp] theorem Opcode.opcode_operands (o : Opcode) (w : CmdWord) : (o.operands w).opcode = o := by
  cases o <;> rfl

/-- A legal word read by its command's format (R62). -/
theorem fields_of_decode_ok {w : CmdWord} {i : Instr} (h : decode w = .ok i) :
    CmdWord.rsv w = 0 ∧ CmdWord.unusedZero w i.opcode.format = true := by
  obtain ⟨o, ⟨-, hrsv, hu⟩, rfl⟩ := decode_ok_iff.1 h
  exact ⟨hrsv, by rwa [Opcode.opcode_operands]⟩

/-- Two adjoining zero fields are one zero field. -/
theorem extractLsb'_add_eq_zero {k s m n : Nat} {w : BitVec k} (hlow : w.extractLsb' s m = 0)
    (hhigh : w.extractLsb' (s + m) n = 0) : w.extractLsb' s (n + m) = 0 := by
  rw [← BitVec.extractLsb'_append_extractLsb'_eq_extractLsb' rfl, hlow, hhigh]
  exact BitVec.zero_append_zero

/-- Fields C and D together are bits 15:0 (R61). -/
theorem low16_eq_zero {w : CmdWord} (hc : CmdWord.c w = 0) (hd : CmdWord.d w = 0) : w.extractLsb' 0 16 = 0 :=
  extractLsb'_add_eq_zero (m := 8) (n := 8) hd hc

/-- Fields A to D together are bits 31:0 (R61). -/
theorem low32_eq_zero {w : CmdWord} (ha : CmdWord.a w = 0) (hb : CmdWord.b w = 0) (hc : CmdWord.c w = 0)
    (hd : CmdWord.d w = 0) : w.extractLsb' 0 32 = 0 :=
  extractLsb'_add_eq_zero (m := 24) (n := 8)
    (extractLsb'_add_eq_zero (m := 16) (n := 8) (low16_eq_zero hc hd) hb) ha

/-- The bits that a format requires to be zero (R62). -/
theorem bits_of_unusedZero_n {w : CmdWord} (h : CmdWord.unusedZero w .n = true) :
    w.getLsbD 32 = false ∧ w.extractLsb' 0 32 = 0 := by
  simp only [CmdWord.unusedZero, Bool.and_eq_true, Bool.not_eq_true', beq_iff_eq] at h
  obtain ⟨⟨⟨⟨hv, ha⟩, hb⟩, hc⟩, hd⟩ := h
  exact ⟨hv, low32_eq_zero ha hb hc hd⟩

theorem bits_of_unusedZero_f {w : CmdWord} (h : CmdWord.unusedZero w .f = true) : w.extractLsb' 0 32 = 0 := by
  simp only [CmdWord.unusedZero, Bool.and_eq_true, beq_iff_eq] at h
  obtain ⟨⟨⟨ha, hb⟩, hc⟩, hd⟩ := h
  exact low32_eq_zero ha hb hc hd

theorem bits_of_unusedZero_p {w : CmdWord} (h : CmdWord.unusedZero w .p = true) : w.extractLsb' 0 16 = 0 := by
  simp only [CmdWord.unusedZero, Bool.and_eq_true, beq_iff_eq] at h
  obtain ⟨hc, hd⟩ := h
  exact low16_eq_zero hc hd

theorem bits_of_unusedZero_t {w : CmdWord} (h : CmdWord.unusedZero w .t = true) : w.extractLsb' 0 8 = 0 :=
  beq_iff_eq.1 h

theorem Opcode.format_eq_n {o : Opcode} (h : o ∈ [Opcode.init, .frameOut]) : o.format = .n := by
  revert h
  cases o <;> decide

theorem Opcode.format_eq_t {o : Opcode} (h : o ∈ [Opcode.hline, .vline]) : o.format = .t := by
  revert h
  cases o <;> decide

/-- Settles O4, format by format. -/
theorem unusedFieldsZero : Obligations.UnusedFieldsZero := by
  intro w i h
  obtain ⟨hrsv, hu⟩ := fields_of_decode_ok h
  refine ⟨hrsv, fun ho => ?_, fun ho => ?_, fun ho => ?_, fun ho => ?_⟩
  · exact bits_of_unusedZero_n (Opcode.format_eq_n ho ▸ hu)
  · exact bits_of_unusedZero_f (by rwa [ho] at hu)
  · exact bits_of_unusedZero_p (by rwa [ho] at hu)
  · exact bits_of_unusedZero_t (Opcode.format_eq_t ho ▸ hu)

/-! ### Illegal words -/

open Machine in
/-- An idle engine that is offered an illegal word consumes it and raises IllegalCommand (R65, R144). -/
theorem step_illegal_word {w : CmdWord} {ws : List CmdWord} {s : State} {e : IllegalReason}
    (hr : s.resetNext = false) (he : s.afterHost.engine = .idle) (hw : s.afterHost.words = w :: ws)
    (hd : decode w = .error e) : step s = .next (raise .illegalCommand { s.afterHost with words := ws }) := by
  rw [step_of_not_reset hr]
  simp only [engineTurn, he, hw, accept, hd]

open Machine in
/-- IllegalCommand sets STATUS.ILLEGAL_ERR and the ghost bit, and nothing else (R144, R158). -/
theorem raise_illegal_eq (s : State) :
    raise .illegalCommand s = { s with illegalErr := true, faultRecorded := true } := rfl

/-- Settles O5: the fields of an illegal word, and its step by what raising IllegalCommand changes. -/
theorem illegalWordOnlyRaises : Obligations.IllegalWordOnlyRaises := by
  intro w ws s
  constructor
  · rw [decode_error_iff_fields, Opcode.ofNumber_eq_none_iff]
    rfl
  · rintro hr he hw ⟨e, hd⟩
    rw [step_illegal_word hr he hw hd, raise_illegal_eq]

/-! ### The assembler on RECT and PLAIN_RECT -/

theorem assemble_eq_some_iff {l : Asm} {w : CmdWord} : assemble l = some w ↔ l.wf = true ∧ encode l.instr = w := by
  simp [assemble]

/-- A number that fits its field is read back from it (R63, R68). -/
theorem toNat_field {n : Int} (h : fitsField n = true) : ((field n).toNat : Int) = n := by
  simp only [fitsField, Bool.and_eq_true, decide_eq_true_eq] at h
  obtain ⟨h0, h255⟩ := h
  rw [field, BitVec.toNat_ofInt]
  omega

/-- The word of a RECT command decodes to it (R61, R64). -/
theorem decode_encode_rect (t l w h : Byte) (v : Bool) :
    decode (encode (.rect t l w h v)) = .ok (.rect t l w h v) := by
  obtain ⟨hop, hrsv, -⟩ := Laws.EncodedFields.rect t l w h v
  refine decode_ok_iff.2 ⟨.rect, ⟨hop, hrsv, rfl⟩, ?_⟩
  simp [Opcode.operands, encode]

/-- PLAIN_RECT is accepted when RECT is and stands for the same command (R69). -/
theorem assemble_plainRect (t l w h : Int) (v : Bool) :
    assemble (.plainRect t l w h v) = assemble (.rect t l w h v) := rfl

/-- The word of an accepted RECT line is disassembled as that line (R68, R69). -/
theorem disassemble_of_assemble_rect {t l w h : Int} {v : Bool} {cw : CmdWord}
    (hcw : assemble (.rect t l w h v) = some cw) : disassemble cw = some (.rect t l w h v) := by
  obtain ⟨hwf, rfl⟩ := assemble_eq_some_iff.1 hcw
  simp only [Asm.wf, Bool.and_eq_true] at hwf
  obtain ⟨⟨⟨ht, hl⟩, hw⟩, hh⟩ := hwf
  simp only [disassemble, Asm.instr, decode_encode_rect, Instr.asm, toNat_field ht, toNat_field hl, toNat_field hw,
    toNat_field hh]

/-- Settles O7, from RECT: the two lines are assembled alike. -/
theorem plainRectIsRect : Obligations.PlainRectIsRect := by
  intro top left width height v
  refine ⟨assemble_plainRect top left width height v, fun w hw => ?_⟩
  rw [assemble_plainRect] at hw
  exact disassemble_of_assemble_rect hw

end Sys2Proof
end

section
/-! PROOFS for 40_framebuffer.md: INIT (R80) and PIXEL (R81). -/

namespace Sys2Proof.Machine

/-! ### INIT -/

/-- INIT writes the marker to FB[0] (R80). -/
theorem initByte_zero : initByte 0 = Config.dataMarker := if_pos rfl

/-- INIT writes zero to a cell of the plane (R80). -/
theorem initByte_of_pos {i : Nat} (h : 0 < i) : initByte i = 0 := if_neg (Nat.ne_of_gt h)

/-- Settles O29, from what INIT writes to the cells inside FB and to no other. -/
theorem initResult : Obligations.InitResult := by
  refine ⟨rfl, fun s => ?_⟩
  obtain ⟨m, hexec, hread, -⟩ := execInit_next s
  have hinside : ∀ i, i < Config.bufLen → m.read i = some (initByte i) := fun i hi => by rw [hread, if_pos hi]
  refine ⟨_, hexec, ?_, fun i h1 h2 => ?_, fun i h => ?_, rfl⟩
  · rw [← initByte_zero]
    exact hinside 0 (by decide)
  · rw [← initByte_of_pos h1]
    exact hinside i (Nat.lt_succ_of_le h2)
  · exact (hread i).trans (if_neg (Nat.not_lt_of_le h))

/-! ### PIXEL -/

/-- A word whose C and D are zero is the union of its opcode, V, A and B, each in its place (R61). -/
theorem packWord_c_d_zero (op : OpField) (v : Bool) (a b : Byte) :
    packWord op v a b 0 0 =
      (op.setWidth 40 <<< 36) ||| ((BitVec.ofBool v).setWidth 40 <<< 32) ||| (a.setWidth 40 <<< 24) |||
        (b.setWidth 40 <<< 16) := by
  simp [packWord]

/-- The word of PIXEL: opcode 2, then V and its two operands (R61, R81). -/
theorem encode_pixel (x y : Byte) (v : Bool) :
    encode (.pixel x y v) =
      0x2000000000#40 ||| ((BitVec.ofBool v).setWidth 40 <<< 32) ||| (x.setWidth 40 <<< 24) |||
        (y.setWidth 40 <<< 16) := by
  have hop : Opcode.pixel.number.setWidth 40 <<< 36 = 0x2000000000#40 := by decide
  rw [← hop]
  exact packWord_c_d_zero Opcode.pixel.number v x y

/-- PIXEL draws its one point with its own V (R81). -/
theorem exec_pixel (x y : Byte) (v : Bool) (s : State) :
    exec (.pixel x y v) s = drawPoints [⟨zext x, zext y⟩] v s := by
  rw [drawPoints_singleton]
  rfl

/-- The one point of PIXEL is its pair of operands, zero extended (R63, R81). -/
theorem mem_pixel_points {x y : Byte} {px py : Int} :
    (⟨px, py⟩ : Point) ∈ [(⟨zext x, zext y⟩ : Point)] ↔ px = x.toNat ∧ py = y.toNat := by
  rw [List.mem_singleton, Point.mk.injEq]
  rfl

/-- Settles O30: PIXEL's word from its fields, its effect as the drawing of its one point. -/
theorem pixelResult : Obligations.PixelResult := by
  intro x y v
  refine ⟨encode_pixel x y v, fun s h => ?_⟩
  rw [exec_pixel]
  exact drawPoints_result (fun _ _ => mem_pixel_points) v h

end Sys2Proof.Machine
end

section
/-! PROOFS for 41_frame_output.md: FRAME_OUT (R91) and its wait for the consumer (R157, R178). -/

namespace Sys2Proof.Machine

/-- The cells below `n`, when they all hold values, as one list of `n` bytes in index order. -/
theorem exists_bytes_of_holds {s : State} {n : Nat} (h : ∀ i, i < n → s.holds i) :
    ∃ bs : List Byte, bs.length = n ∧ ∀ i, i < n → s.fb.read i = bs[i]? := by
  induction n with
  | zero => exact ⟨[], rfl, fun i hi => absurd hi (Nat.not_lt_zero i)⟩
  | succ n ih =>
    obtain ⟨bs, rfl, hr⟩ := ih fun i hi => h i (Nat.lt_succ_of_lt hi)
    obtain ⟨b, hb⟩ := h bs.length (Nat.lt_succ_self _)
    refine ⟨bs ++ [b], List.length_append, fun i hi => ?_⟩
    rcases Nat.lt_succ_iff_lt_or_eq.1 hi with hlt | rfl
    · rw [List.getElem?_append_left hlt, hr i hlt]
    · rw [List.getElem?_concat_length, hb]

/-- A consumer that does not take `n` bytes takes some smaller number and no more. -/
theorem Consumer.takes_eq_false_iff {c : Consumer} {n : Nat} :
    c.takes n = false ↔ ∃ m, m < n ∧ c = .upTo m := by
  cases c with
  | always => simp [Consumer.takes]
  | upTo m => simp [Consumer.takes]

/-- Bit 0 of the status register is BUSY (R23). -/
theorem status_getLsbD_zero (s : State) : s.status.getLsbD 0 = s.busy := by
  simp [State.status]

/-- FRAME_OUT to a consumer that takes the whole FB: one frame more, and the engine idle (R91). -/
theorem exec_frameOut_whole {s : State} {bs : List Byte} (hl : bs.length = Config.bufLen)
    (hr : ∀ i, i < Config.bufLen → s.fb.read i = bs[i]?) (hc : s.consumer.takes Config.bufLen = true) :
    exec .frameOut s =
      .next (endFrame { s with inFlight := bs, consumer := s.consumer.after Config.bufLen }) :=
  emitFrom_whole (s := { s with inFlight := [] }) hl (Nat.zero_add _).le
    (fun i hi => (Nat.zero_add i).symm ▸ hr i hi) hc

/-- FRAME_OUT to a consumer that takes `n` bytes and no more: they are in flight and byte `n` is on offer (R157). -/
theorem exec_frameOut_waits {s : State} {bs : List Byte} (hn : bs.length < Config.bufLen)
    (hr : ∀ i, i < bs.length → s.fb.read i = bs[i]?) (ho : s.holds bs.length)
    (hc : s.consumer = .upTo bs.length) :
    exec .frameOut s =
      .next { s with inFlight := bs, consumer := .upTo 0, engine := .emitting bs.length } := by
  have h := emitFrom_waits (s := { s with inFlight := [] }) (i := 0) rfl hn (Nat.zero_add _).le
    (fun i hi => (Nat.zero_add i).symm ▸ hr i hi) ((Nat.zero_add bs.length).symm ▸ ho) hc
  rw [Nat.zero_add] at h
  exact h

/-- FRAME_OUT on an FB whose first cell holds no value is the model's fault (R31). -/
theorem exec_frameOut_unwritten {s : State} (h : s.fb.read 0 = none) :
    exec .frameOut s = .fault (.uninitialisedRead 0) :=
  emitFrom_unwritten (s := { s with inFlight := [] }) (by decide) h

/-- The end of a frame in flight on a block that was idle before it: the frame joins the frames emitted. -/
theorem endFrame_of_idle {s : State} (he : s.engine = .idle) (hf : s.inFlight = []) (bs : List Byte) (c : Consumer) :
    endFrame { s with inFlight := bs, consumer := c } = { s with frames := s.frames ++ [bs], consumer := c } := by
  cases s
  cases he
  cases hf
  rfl

/-- Settles O48: FB as one list of bytes is emitted whole, or as far as the consumer takes it. -/
theorem frameOutResult : Obligations.FrameOutResult := by
  refine ⟨rfl, fun s he hf hinit hc => ?_, fun s hinit hc => ?_, fun s => exec_frameOut_unwritten⟩
  · obtain ⟨bs, hl, hr⟩ := exists_bytes_of_holds hinit
    refine ⟨bs, hl, hr, ?_⟩
    rw [exec_frameOut_whole hl hr hc, endFrame_of_idle he hf]
  · obtain ⟨n, hn, hcn⟩ := Consumer.takes_eq_false_iff.1 hc
    obtain ⟨bs, rfl, hr⟩ := exists_bytes_of_holds fun i hi => hinit i (Nat.lt_trans hi hn)
    exact ⟨_, exec_frameOut_waits hn hr (hinit _ hn) hcn, status_getLsbD_zero _, rfl, rfl⟩

end Sys2Proof.Machine
end

section
/-! PROOFS for 42_rasterizer.md: HLINE (R102), VLINE (R103) and RECT (R100). -/

namespace Sys2Proof.Machine

/-! ### Words -/

/-- A word is the union of its opcode, V and its four fields, each in its place (R61). -/
theorem packWord_eq_or_shifts (op : OpField) (v : Bool) (a b c d : Byte) :
    packWord op v a b c d =
      (op.setWidth 40 <<< 36) ||| ((BitVec.ofBool v).setWidth 40 <<< 32) ||| (a.setWidth 40 <<< 24) |||
        (b.setWidth 40 <<< 16) ||| (c.setWidth 40 <<< 8) ||| d.setWidth 40 := rfl

/-- A word whose D is zero is the union of its opcode, V, A, B and C, each in its place (R61). -/
theorem packWord_d_zero (op : OpField) (v : Bool) (a b c : Byte) :
    packWord op v a b c 0 =
      (op.setWidth 40 <<< 36) ||| ((BitVec.ofBool v).setWidth 40 <<< 32) ||| (a.setWidth 40 <<< 24) |||
        (b.setWidth 40 <<< 16) ||| (c.setWidth 40 <<< 8) := by
  simp [packWord_eq_or_shifts]

/-- The word of HLINE: opcode 4, then V and its three operands (R61, R102). -/
theorem encode_hline (x0 x1 y : Byte) (v : Bool) :
    encode (.hline x0 x1 y v) =
      0x4000000000#40 ||| ((BitVec.ofBool v).setWidth 40 <<< 32) ||| (x0.setWidth 40 <<< 24) |||
        (x1.setWidth 40 <<< 16) ||| (y.setWidth 40 <<< 8) :=
  packWord_d_zero Opcode.hline.number v x0 x1 y

/-- The word of VLINE: opcode 5, then V and its three operands (R61, R103). -/
theorem encode_vline (x y0 y1 : Byte) (v : Bool) :
    encode (.vline x y0 y1 v) =
      0x5000000000#40 ||| ((BitVec.ofBool v).setWidth 40 <<< 32) ||| (x.setWidth 40 <<< 24) |||
        (y0.setWidth 40 <<< 16) ||| (y1.setWidth 40 <<< 8) :=
  packWord_d_zero Opcode.vline.number v x y0 y1

/-- The word of RECT: opcode 7, then V and its four operands (R61, R100). -/
theorem encode_rect (top left width height : Byte) (v : Bool) :
    encode (.rect top left width height v) =
      0x7000000000#40 ||| ((BitVec.ofBool v).setWidth 40 <<< 32) ||| (top.setWidth 40 <<< 24) |||
        (left.setWidth 40 <<< 16) ||| (width.setWidth 40 <<< 8) ||| height.setWidth 40 :=
  packWord_eq_or_shifts Opcode.rect.number v top left width height

/-! ### PixelWrite calls -/

@[simp] theorem length_hlinePoints (x0 x1 y : Int) : (hlinePoints x0 x1 y).length = (x1 - x0 + 1).toNat := by
  rw [hlinePoints, List.length_map, length_upto]

@[simp] theorem length_vlinePoints (x y0 y1 : Int) : (vlinePoints x y0 y1).length = (y1 - y0 + 1).toNat := by
  rw [vlinePoints, List.length_map, length_upto]

/-- Each pass over an edge pair makes two calls per step (R100). -/
@[simp] theorem length_rectPoints (top left w h : Int) :
    (rectPoints top left w h).length = 2 * w.toNat + 2 * h.toNat := by
  simp [rectPoints, List.length_flatMap, Nat.mul_comm]

/-- The length of an inclusive run between two operands, 0 when they are in the wrong order (R102, R103). -/
theorem toNat_zext_run (a b : Byte) : (zext b - zext a + 1).toNat = b.toNat + 1 - a.toNat := by
  simp only [zext]
  omega

/-! ### Drawings -/

/-- HLINE draws its run with its own V (R102). -/
theorem exec_hline (x0 x1 y : Byte) (v : Bool) (s : State) :
    exec (.hline x0 x1 y v) s = drawPoints (hlinePoints (zext x0) (zext x1) (zext y)) v s := rfl

/-- VLINE draws its run with its own V (R103). -/
theorem exec_vline (x y0 y1 : Byte) (v : Bool) (s : State) :
    exec (.vline x y0 y1 v) s = drawPoints (vlinePoints (zext x) (zext y0) (zext y1)) v s := rfl

/-- RECT draws its outline with its own V (R100). -/
theorem exec_rect (top left width height : Byte) (v : Bool) (s : State) :
    exec (.rect top left width height v) s =
      drawPoints (rectPoints (zext top) (zext left) (zext width) (zext height)) v s := rfl

/-- A drawing without points changes nothing. -/
theorem drawPoints_of_length_eq_zero {ps : List Point} (h : ps.length = 0) (v : Bool) (s : State) :
    drawPoints ps v s = .next s := by
  rw [List.eq_nil_of_length_eq_zero h]
  rfl

/-- The effect of a drawing of points `P`, and that it has none when there are no points. -/
theorem drawPoints_result_or_unchanged {ps : List Point} {P : Int → Int → Prop}
    (hP : ∀ x y, (⟨x, y⟩ : Point) ∈ ps ↔ P x y) (v : Bool) {s : State} (h : s.readable P) :
    ∃ t, drawPoints ps v s = .next t ∧ Drawn s t P v ∧ (ps.length = 0 → t = s) := by
  obtain ⟨t, ht, hd⟩ := drawPoints_result hP v h
  exact ⟨t, ht, hd, fun hl => Host.Outcome.next.inj (ht.symm.trans (drawPoints_of_length_eq_zero hl v s))⟩

/-- Settles O34: HLINE draws the points of its run, of which there are none when `x0 > x1`. -/
theorem hlineResult : Obligations.HlineResult := by
  intro x0 x1 y v
  have hlen : (hlinePoints (zext x0) (zext x1) (zext y)).length = x1.toNat + 1 - x0.toNat := by
    rw [length_hlinePoints, toNat_zext_run]
  refine ⟨encode_hline x0 x1 y v, hlen, fun s h => ?_⟩
  rw [exec_hline]
  obtain ⟨t, ht, hd, hempty⟩ := drawPoints_result_or_unchanged (fun _ _ => mem_hlinePoints) v h
  exact ⟨t, ht, hd, fun hlt => hempty (hlen.trans (Nat.sub_eq_zero_of_le hlt))⟩

/-- Settles O35: VLINE draws the points of its run, of which there are none when `y0 > y1`. -/
theorem vlineResult : Obligations.VlineResult := by
  intro x y0 y1 v
  have hlen : (vlinePoints (zext x) (zext y0) (zext y1)).length = y1.toNat + 1 - y0.toNat := by
    rw [length_vlinePoints, toNat_zext_run]
  refine ⟨encode_vline x y0 y1 v, hlen, fun s h => ?_⟩
  rw [exec_vline]
  obtain ⟨t, ht, hd, hempty⟩ := drawPoints_result_or_unchanged (fun _ _ => mem_vlinePoints) v h
  exact ⟨t, ht, hd, fun hlt => hempty (hlen.trans (Nat.sub_eq_zero_of_le hlt))⟩

/-- Settles O39: RECT draws the points of its two passes, two for each column and two for each row. -/
theorem rectResult : Obligations.RectResult := by
  intro top left width height v
  refine ⟨encode_rect top left width height v, length_rectPoints _ _ _ _, fun s h => ?_⟩
  rw [exec_rect]
  exact drawPoints_result (fun _ _ => mem_rectPoints) v h

end Sys2Proof.Machine
end

section
/-! PROOFS for 43_stamps.md: the walk (R120) and the stamps STAR (R123), HEART (R125) and SQUARE (R127). -/

namespace Sys2Proof.Machine

/-! ### The walk -/

/-- The loop of the walk from sample `k` on is `n` samples, when those and no others lie below the size and the bound
on its iterations allows them (R120). -/
theorem walkOffsetsFrom_eq_map {spacing size : Int} {n fuel : Nat} {k : Int} (hf : n ≤ fuel)
    (hn : ∀ j : Nat, j < n ↔ (k + j) * spacing < size) :
    walkOffsetsFrom spacing size fuel k = (List.range n).map fun (j : Nat) => (k + j) * spacing := by
  induction n generalizing fuel k with
  | zero =>
    have hge : ¬ k * spacing < size := by simpa using hn 0
    cases fuel with
    | zero => rfl
    | succ fuel => exact if_neg hge
  | succ n ih =>
    obtain ⟨fuel, rfl⟩ := Nat.exists_eq_add_of_le' (Nat.le_of_add_left_le hf)
    have hlt : k * spacing < size := by simpa using hn 0
    have hnext : ∀ j : Nat, j < n ↔ (k + 1 + j) * spacing < size := fun j => by
      rw [← Nat.add_lt_add_iff_right (k := 1), hn, Nat.cast_succ, add_assoc, add_comm 1 (j : Int)]
    rw [walkOffsetsFrom, if_pos hlt, ih (Nat.le_of_succ_le_succ hf) hnext]
    simp [List.range_succ_eq_map, Function.comp_def, add_assoc, add_comm (1 : Int)]

/-- `ceil(w / S)` counts the samples `k * S` below `w`. -/
theorem lt_ceil_div_iff {spacing : Nat} (hs : 0 < spacing) (w k : Nat) :
    k < (w + spacing - 1) / spacing ↔ k * spacing < w := by
  have hle := ceilDiv_le_iff_le_mul (b := w) (c := k) hs
  rw [Nat.ceilDiv_eq_add_pred_div, Nat.mul_comm] at hle
  exact lt_iff_lt_of_le_iff_le hle

/-- There are `ceil(w / S)` sample offsets along an edge of `w` pixels, the multiples `k * S` in order (R120). -/
theorem walkOffsets_eq_map {spacing : Nat} (hs : 0 < spacing) (w : Nat) :
    walkOffsets spacing w =
      (List.range ((w + spacing - 1) / spacing)).map fun (k : Nat) => (k : Int) * spacing := by
  have hfuel : (w + spacing - 1) / spacing ≤ w :=
    Nat.le_of_not_lt fun h => Nat.not_lt_of_le (Nat.le_mul_of_pos_right w hs) ((lt_ceil_div_iff hs w w).1 h)
  have hbelow : ∀ k : Nat, k < (w + spacing - 1) / spacing ↔ (0 + (k : Int)) * spacing < w := fun k => by
    rw [lt_ceil_div_iff hs, zero_add]
    norm_cast
  simpa [walkOffsets] using walkOffsetsFrom_eq_map hfuel hbelow

theorem length_walkOffsets {spacing : Nat} (hs : 0 < spacing) (w : Nat) :
    (walkOffsets spacing w).length = (w + spacing - 1) / spacing := by
  rw [walkOffsets_eq_map hs, List.length_map, List.length_range]

/-- The walk makes two stamps at each sample along x and two at each sample along y (R120). -/
theorem length_walkPoints {spacing m : Nat} (hs : 0 < spacing) {stamp : Int → Int → List Point}
    (hstamp : ∀ px py, (stamp px py).length = m) (top left : Int) (w h : Nat) (q : Int) :
    (walkPoints top left w h spacing q stamp).length =
      m * (2 * ((w + spacing - 1) / spacing) + 2 * ((h + spacing - 1) / spacing)) := by
  simp only [walkPoints, List.length_append, List.length_flatMap, hstamp, List.map_const', List.sum_replicate,
    length_walkOffsets hs, smul_eq_mul]
  ring

/-- The points of the walk are those of the stamps at its anchors (R120). -/
theorem mem_walkPoints_iff_anchor {top left w h spacing q : Int} {stamp : Int → Int → List Point} {p : Point}
    (hs : 1 ≤ spacing) :
    p ∈ walkPoints top left w h spacing q stamp ↔
      ∃ px py, WalkAnchor top left w h spacing q px py ∧ p ∈ stamp px py := by
  rw [mem_walkPoints hs]
  constructor
  · rintro (⟨n, hn, hp | hp⟩ | ⟨n, hn, hp | hp⟩)
    · exact ⟨_, _, .inl ⟨n, hn, rfl, .inl rfl⟩, hp⟩
    · exact ⟨_, _, .inl ⟨n, hn, rfl, .inr rfl⟩, hp⟩
    · exact ⟨_, _, .inr ⟨n, hn, rfl, .inl rfl⟩, hp⟩
    · exact ⟨_, _, .inr ⟨n, hn, rfl, .inr rfl⟩, hp⟩
  · rintro ⟨px, py, ⟨n, hn, rfl, rfl | rfl⟩ | ⟨n, hn, rfl, rfl | rfl⟩, hp⟩
    · exact .inl ⟨n, hn, .inl hp⟩
    · exact .inl ⟨n, hn, .inr hp⟩
    · exact .inr ⟨n, hn, .inl hp⟩
    · exact .inr ⟨n, hn, .inr hp⟩

/-- Settles O41: the sample offsets along each edge as the multiples of the spacing below its size. -/
theorem walkSamples : Obligations.WalkSamples := by
  intro top left w h spacing q stamp hs _
  rw [walkPoints, walkOffsets_eq_map hs, walkOffsets_eq_map hs, List.flatMap_map, List.flatMap_map]

/-! ### Stamps -/

/-- The drawing of a walk with a stamp whose pixels at anchor `(px, py)` are the coordinates `R px py`. -/
theorem drawPoints_walk {top left w h spacing q : Int} {stamp : Int → Int → List Point}
    {R : Int → Int → Int → Int → Prop} (hs : 1 ≤ spacing)
    (hstamp : ∀ px py x y, (⟨x, y⟩ : Point) ∈ stamp px py ↔ R px py x y) (v : Bool) {s : State}
    (hr : s.readable fun x y => ∃ px py, WalkAnchor top left w h spacing q px py ∧ R px py x y) :
    ∃ t, drawPoints (walkPoints top left w h spacing q stamp) v s = .next t ∧
      Drawn s t (fun x y => ∃ px py, WalkAnchor top left w h spacing q px py ∧ R px py x y) v := by
  refine drawPoints_result (fun x y => ?_) v hr
  simp only [mem_walkPoints_iff_anchor hs, hstamp]

theorem length_starStamp (px py : Int) : (starStamp px py).length = 5 := rfl

theorem length_heartStamp (px py : Int) : (heartStamp px py).length = 8 := rfl

/-- The square is drawn as an outline of 3 by 3, its corners twice (R126). -/
theorem length_squareStamp (px py : Int) : (squareStamp px py).length = 12 := length_rectPoints py px 3 3

/-! ### STAR, HEART and SQUARE -/

/-- The word of STAR: opcode 8, then V and its four operands (R61, R123). -/
theorem encode_star (top left width height : Byte) (v : Bool) :
    encode (.star top left width height v) =
      0x8000000000#40 ||| ((BitVec.ofBool v).setWidth 40 <<< 32) ||| (top.setWidth 40 <<< 24) |||
        (left.setWidth 40 <<< 16) ||| (width.setWidth 40 <<< 8) ||| height.setWidth 40 :=
  packWord_eq_or_shifts Opcode.star.number v top left width height

/-- The word of HEART: opcode 9, then V and its four operands (R61, R125). -/
theorem encode_heart (top left width height : Byte) (v : Bool) :
    encode (.heart top left width height v) =
      0x9000000000#40 ||| ((BitVec.ofBool v).setWidth 40 <<< 32) ||| (top.setWidth 40 <<< 24) |||
        (left.setWidth 40 <<< 16) ||| (width.setWidth 40 <<< 8) ||| height.setWidth 40 :=
  packWord_eq_or_shifts Opcode.heart.number v top left width height

/-- The word of SQUARE: opcode 10, then V and its four operands (R61, R127). -/
theorem encode_square (top left width height : Byte) (v : Bool) :
    encode (.square top left width height v) =
      0xA000000000#40 ||| ((BitVec.ofBool v).setWidth 40 <<< 32) ||| (top.setWidth 40 <<< 24) |||
        (left.setWidth 40 <<< 16) ||| (width.setWidth 40 <<< 8) ||| height.setWidth 40 :=
  packWord_eq_or_shifts Opcode.square.number v top left width height

/-- STAR draws its walk with its own V (R123). -/
theorem exec_star (top left width height : Byte) (v : Bool) (s : State) :
    exec (.star top left width height v) s =
      drawPoints (walkPoints (zext top) (zext left) (zext width) (zext height) 5 1 starStamp) v s := rfl

/-- HEART draws its walk with its own V (R125). -/
theorem exec_heart (top left width height : Byte) (v : Bool) (s : State) :
    exec (.heart top left width height v) s =
      drawPoints (walkPoints (zext top) (zext left) (zext width) (zext height) 6 1 heartStamp) v s := rfl

/-- SQUARE draws its walk with its own V (R127). -/
theorem exec_square (top left width height : Byte) (v : Bool) (s : State) :
    exec (.square top left width height v) s =
      drawPoints (walkPoints (zext top) (zext left) (zext width) (zext height) 4 3 squareStamp) v s := rfl

/-- Settles O44: STAR is the walk of a five-pixel stamp, with spacing 5 and offset 1. -/
theorem starResult : Obligations.StarResult := by
  intro top left width height v
  refine ⟨encode_star top left width height v,
    length_walkPoints (spacing := 5) (by decide) length_starStamp _ _ _ _ _, fun s hr => ?_⟩
  rw [exec_star]
  exact drawPoints_walk (by decide) (fun _ _ _ _ => mem_starStamp) v hr

/-- Settles O45: HEART is the walk of an eight-pixel stamp, with spacing 6 and offset 1. -/
theorem heartResult : Obligations.HeartResult := by
  intro top left width height v
  refine ⟨encode_heart top left width height v,
    length_walkPoints (spacing := 6) (by decide) length_heartStamp _ _ _ _ _, fun s hr => ?_⟩
  rw [exec_heart]
  exact drawPoints_walk (by decide) (fun _ _ _ _ => mem_heartStamp) v hr

/-- Settles O46: SQUARE is the walk of the outline of 3 by 3, with spacing 4 and offset 3. -/
theorem squareResult : Obligations.SquareResult := by
  intro top left width height v
  refine ⟨encode_square top left width height v,
    length_walkPoints (spacing := 4) (by decide) length_squareStamp _ _ _ _ _, fun s hr => ?_⟩
  rw [exec_square]
  exact drawPoints_walk (by decide) (fun _ _ _ _ => mem_squareStamp) v hr

end Sys2Proof.Machine
end

section
/-! PROOFS for 30_encoding.md: encoding and decoding are inverse to each other (R61, R62, R64), and so are assembling
and disassembling (R68, R69). -/

namespace Sys2Proof

/-- The word of a command has its opcode, RSV zero and its format's unused fields zero (R61, R62). -/
theorem fields_encode (i : Instr) :
    CmdWord.op (encode i) = i.opcode.number ∧ CmdWord.rsv (encode i) = 0 ∧
      CmdWord.unusedZero (encode i) i.opcode.format = true := by
  cases i <;> simp [encode, Instr.opcode, Opcode.format, CmdWord.unusedZero]

/-- The fields of a command's word are its operands (R61). -/
theorem operands_encode (i : Instr) : i.opcode.operands (encode i) = i := by
  cases i <;> simp [encode, Instr.opcode, Opcode.operands]

/-- The word of a command decodes to that command. -/
theorem decode_encode (i : Instr) : decode (encode i) = .ok i :=
  decode_ok_iff.2 ⟨i.opcode, fields_encode i, (operands_encode i).symm⟩

/-- Settles O1: the word of a command selects the command's row, and its fields are the operands. -/
theorem decodeOfEncode : Obligations.DecodeOfEncode := decode_encode

/-- A word with the opcode of a command and zero wherever that command's format requires it is the word of the command
that its fields give. -/
theorem encode_operands {o : Opcode} {w : CmdWord} (ho : CmdWord.op w = o.number) (hr : CmdWord.rsv w = 0)
    (hu : CmdWord.unusedZero w o.format = true) : encode (o.operands w) = w := by
  calc encode (o.operands w)
      = packWord (CmdWord.op w) (CmdWord.v w) (CmdWord.a w) (CmdWord.b w) (CmdWord.c w) (CmdWord.d w) := by
        cases o <;> simp_all [Opcode.operands, Opcode.format, Instr.opcode, CmdWord.unusedZero, encode]
    _ = w := packWord_fields hr

/-- Settles O2: a legal word is packed from its fields, and those its command does not use are zero. -/
theorem encodeOfDecode : Obligations.EncodeOfDecode := by
  intro w i h
  obtain ⟨o, ⟨ho, hr, hu⟩, rfl⟩ := decode_ok_iff.1 h
  exact encode_operands ho hr hu

@[simp] theorem disassemble_encode (i : Instr) : disassemble (encode i) = some i.asm := by
  rw [disassemble, decode_encode]

theorem assemble_eq_none_iff {l : Asm} : assemble l = none ↔ l.wf = false := by
  simp [assemble]

/-- A PLAIN_RECT line whose operands fit is printed back as RECT (R69). -/
theorem asm_instr_plainRect {t l w h : Int} {v : Bool} (hwf : (Asm.plainRect t l w h v).wf = true) :
    (Asm.plainRect t l w h v).instr.asm = .rect t l w h v := by
  simp_all [Asm.wf, Asm.instr, Instr.asm, toNat_field]

/-- Any other line whose operands fit is printed back from the command it stands for (R68). -/
theorem asm_instr_of_ne_plainRect {l : Asm} (hwf : l.wf = true) (hne : ∀ t f w h v, l ≠ .plainRect t f w h v) :
    l.instr.asm = l := by
  cases l
  case plainRect t f w h v => exact absurd rfl (hne t f w h v)
  all_goals simp_all [Asm.wf, Asm.instr, Instr.asm, toNat_field]

/-- Settles O8: what an accepted line is assembled to is disassembled as the command it stands for. -/
theorem disassembleOfAssemble : Obligations.DisassembleOfAssemble := by
  refine fun l => ⟨assemble_eq_none_iff, fun w hw => ?_⟩
  obtain ⟨hwf, rfl⟩ := assemble_eq_some_iff.1 hw
  rw [disassemble_encode]
  split
  · exact congrArg some (asm_instr_plainRect hwf)
  · exact congrArg some (asm_instr_of_ne_plainRect hwf ‹_›)

/-- Settles O6, by evaluation of the decoder on the nine words. -/
theorem sampleWordsDecode : Obligations.SampleWordsDecode := by
  unfold Obligations.SampleWordsDecode
  exact ⟨rfl, rfl, rfl, rfl, rfl, rfl, rfl, rfl, rfl⟩

end Sys2Proof
end

section
/-! PROOFS, the layer they share: what a command leaves unchanged whenever it gives a next state, and the only way in
which a command or a step can stop. -/

namespace Sys2Proof.Machine

/-! ### Drawings -/

theorem readable_of_initialised {s : State} (h : s.initialised) (P : Int → Int → Prop) : s.readable P :=
  fun _ _ _ hg => h _ (cellIndex_lt hg)

/-- The fields of a state that no drawing touches. -/
theorem Drawn.frame {s t : State} {P : Int → Int → Prop} {v : Bool} (h : Drawn s t P v) :
    t.illegalErr = s.illegalErr ∧ t.engine = s.engine ∧ t.latches = s.latches ∧ t.inFlight = s.inFlight ∧
      t.frames = s.frames ∧ t.cutFrames = s.cutFrames ∧ t.words = s.words ∧ t.consumer = s.consumer ∧
      t.moves = s.moves := by
  rw [h.rest]
  exact ⟨rfl, rfl, rfl, rfl, rfl, rfl, rfl, rfl, rfl⟩

/-- A drawing that stays on the grid leaves RANGE_ERR alone (R46). -/
theorem Drawn.rangeErr_of_inGrid {s t : State} {P : Int → Int → Prop} {v : Bool} (h : Drawn s t P v)
    (hP : ∀ x y, P x y → inGrid x y = true) : t.rangeErr = s.rangeErr := by
  refine Bool.eq_iff_iff.2 (h.range.trans (or_iff_left ?_))
  rintro ⟨x, y, hxy, hout⟩
  simp [hP x y hxy] at hout

/-- Everything a drawing command can do when it gives a next state. -/
theorem exec_drawn {i : Instr} (h1 : i ≠ .init) (h2 : i ≠ .frameOut) {s t : State} (h : exec i s = .next t) :
    ∃ v, Drawn s t (fun x y => (⟨x, y⟩ : Point) ∈ drawnPoints i) v := by
  obtain ⟨v, hv⟩ := exec_drawing h1 h2
  exact ⟨v, drawPoints_drawn ((hv s).symm.trans h)⟩

/-- A drawing command gives no cell a value that held none, and takes none away. -/
theorem exec_drawing_holds {i : Instr} (h1 : i ≠ .init) (h2 : i ≠ .frameOut) {s t : State} (h : exec i s = .next t)
    (k : Nat) : t.holds k ↔ s.holds k := by
  obtain ⟨v, hv⟩ := exec_drawing h1 h2
  exact drawPoints_holds ((hv s).symm.trans h) k

/-! ### INIT -/

/-- Everything INIT can do when it gives a next state. -/
theorem exec_init_cases {s t : State} (h : exec .init s = .next t) :
    ∃ m : Memory, t = clearErrors { s with fb := m } ∧
      (∀ i, m.read i = if i < Config.bufLen then some (initByte i) else s.fb.read i) ∧
      (s.fb.wf = true → m.wf = true) := by
  obtain ⟨m, hm, hr, hw⟩ := execInit_next s
  exact ⟨m, Host.Outcome.next.inj (h.symm.trans hm), hr, hw⟩

/-! ### Emission of a frame -/

/-- The emission of a frame changes the stream, the consumer and the engine only. -/
theorem emitFrom_frame {count i : Nat} {s t : State} (h : emitFrom count i s = .next t) :
    t = { s with frames := t.frames, inFlight := t.inFlight, consumer := t.consumer, engine := t.engine } := by
  obtain ⟨bs, -, ⟨-, -, rfl⟩ | ⟨-, -, -, -, rfl⟩⟩ := emitFrom_cases h <;> rfl

/-- The emission of a frame that gives no next state has met a cell that holds no value (R31). -/
theorem emitFrom_stops {count i : Nat} {s : State} (hc : count ≤ Config.bufLen - i)
    (h : ∀ t, emitFrom count i s ≠ .next t) :
    ∃ k, k < Config.bufLen ∧ s.fb.read k = none ∧ emitFrom count i s = .fault (.uninitialisedRead k) := by
  induction count generalizing i s with
  | zero => exact (h _ rfl).elim
  | succ count ih =>
    have hi : i < Config.bufLen := by omega
    cases hb : s.fb.read i with
    | none => exact ⟨i, hi, hb, emitFrom_unwritten hi hb⟩
    | some b =>
      unfold emitFrom at h ⊢
      simp only [memRead_ok_iff.2 ⟨hi, hb⟩] at h ⊢
      cases ht : s.consumer.take with
      | none => simp [ht] at h
      | some c =>
        simp only [ht] at h ⊢
        exact ih (by omega) h

/-- FRAME_OUT changes the stream, the consumer and the engine only. -/
theorem exec_frameOut_frame {s t : State} (h : exec .frameOut s = .next t) :
    t = { s with frames := t.frames, inFlight := t.inFlight, consumer := t.consumer, engine := t.engine } :=
  emitFrom_frame (s := { s with inFlight := [] }) h

/-! ### Commands -/

/-- A command that gives no next state has read a cell that holds no value (R31). -/
theorem exec_stops {i : Instr} {s : State} (h : ∀ t, exec i s ≠ .next t) :
    ∃ k, k < Config.bufLen ∧ s.fb.read k = none ∧ exec i s = .fault (.uninitialisedRead k) := by
  by_cases h1 : i = .init
  · subst h1
    obtain ⟨m, hm, -⟩ := execInit_next s
    exact (h _ hm).elim
  by_cases h2 : i = .frameOut
  · subst h2
    exact emitFrom_stops (s := { s with inFlight := [] }) le_rfl h
  obtain ⟨v, hv⟩ := exec_drawing h1 h2
  simp only [hv] at h ⊢
  obtain ⟨p, -, hg, hr, he⟩ := drawPoints_stops h
  exact ⟨_, cellIndex_lt hg, hr, he⟩

/-- No command takes a value away from a cell. -/
theorem exec_keeps_holds {i : Instr} {s t : State} (h : exec i s = .next t) {k : Nat} (hk : s.holds k) :
    t.holds k := by
  by_cases h1 : i = .init
  · subst h1
    obtain ⟨m, rfl, hr, -⟩ := exec_init_cases h
    unfold State.holds at hk ⊢
    rw [clearErrors_fb, hr]
    split
    · exact ⟨_, rfl⟩
    · exact hk
  by_cases h2 : i = .frameOut
  · subst h2
    rw [exec_frameOut_frame h]
    exact hk
  exact (exec_drawing_holds h1 h2 h k).2 hk

/-! ### The host's move -/

section afterHost
variable (s : State)

@[simp] theorem afterHost_fb : s.afterHost.fb = s.fb := by rw [afterHost_block]
@[simp] theorem afterHost_rangeErr : s.afterHost.rangeErr = s.rangeErr := by rw [afterHost_block]
@[simp] theorem afterHost_illegalErr : s.afterHost.illegalErr = s.illegalErr := by
  rw [afterHost_block]
@[simp] theorem afterHost_engine : s.afterHost.engine = s.engine := by rw [afterHost_block]
@[simp] theorem afterHost_latches : s.afterHost.latches = s.latches := by rw [afterHost_block]
@[simp] theorem afterHost_inFlight : s.afterHost.inFlight = s.inFlight := by rw [afterHost_block]
@[simp] theorem afterHost_frames : s.afterHost.frames = s.frames := by rw [afterHost_block]
@[simp] theorem afterHost_cutFrames : s.afterHost.cutFrames = s.cutFrames := by
  rw [afterHost_block]
@[simp] theorem afterHost_faultRecorded : s.afterHost.faultRecorded = s.faultRecorded := by
  rw [afterHost_block]

end afterHost

/-! ### Steps -/

/-- A step that gives no next state has read a cell of FB that holds no value (R31): nothing else stops a step. -/
theorem step_stops {s : State} (h : ∀ t, step s ≠ .next t) :
    ∃ k, k < Config.bufLen ∧ s.fb.read k = none ∧ step s = .fault (.uninitialisedRead k) := by
  rcases step_cases s with ⟨ms, -, hs⟩ | ⟨-, i, -, hs⟩ | ⟨-, -, -, hs⟩ | ⟨-, -, w, ws, -, ⟨e, -, hs⟩ | ⟨i, -, hs⟩⟩
  · exact (h _ hs).elim
  · rw [hs] at h ⊢
    simpa [resumeFrame] using emitFrom_stops (s := s.afterHost) le_rfl h
  · exact (h _ hs).elim
  · exact (h _ hs).elim
  · rw [hs] at h ⊢
    simpa using exec_stops h

end Sys2Proof.Machine
end

section
/-! PROOFS for 10_state.md: the invariant of the machine, and that nothing faults once FB holds values (R31). -/

namespace Sys2Proof.Machine

/-! ### The invariant does not speak of the ports and the latches -/

theorem State.Inv.latch {s : State} (h : s.Inv) (w : CmdWord) : (latch w s).Inv :=
  ⟨h.canonical, h.wholeOrEmpty, h.marker, h.recorded, h.framesWhole, h.cutFramesShort, h.idleStream, h.busyStream⟩

theorem State.Inv.ports {s : State} (h : s.Inv) (ws : List CmdWord) (c : Consumer) (ms : List HostMove) :
    { s with words := ws, consumer := c, moves := ms }.Inv :=
  ⟨h.canonical, h.wholeOrEmpty, h.marker, h.recorded, h.framesWhole, h.cutFramesShort, h.idleStream, h.busyStream⟩

theorem State.Inv.afterHost {s : State} (h : s.Inv) : s.afterHost.Inv := by
  rw [afterHost_block]
  exact h.ports _ _ _

/-! ### Reset and illegal words -/

theorem State.Inv.raise_illegal {s : State} (h : s.Inv) : (raise .illegalCommand s).Inv :=
  ⟨h.canonical, h.wholeOrEmpty, h.marker, fun _ => rfl, h.framesWhole, h.cutFramesShort, h.idleStream, h.busyStream⟩

/-- A reset cuts a frame short of its last byte, for that byte was still on offer (R172). -/
theorem State.Inv.resetBlock {s : State} (h : s.Inv) : (resetBlock s).Inv where
  canonical := rfl
  wholeOrEmpty := .inl rfl
  marker := fun _ hb => by simp at hb
  recorded := fun hf => by simp at hf
  framesWhole := h.framesWhole
  cutFramesShort := fun f hf => by
    rw [resetBlock_cutFrames] at hf
    cases he : s.engine with
    | idle =>
      rw [he] at hf
      exact h.cutFramesShort f hf
    | emitting i =>
      obtain ⟨hi, -, hlen, -⟩ := h.busyStream i he
      rw [he] at hf
      rcases List.mem_append.1 hf with hf | hf
      · exact h.cutFramesShort f hf
      · rw [List.mem_singleton.1 hf, hlen]
        exact hi
  idleStream := fun _ => rfl
  busyStream := fun _ he => by simp at he

/-! ### Commands -/

/-- INIT, accepted by an idle engine, leaves a state of the invariant. -/
theorem State.Inv.exec_init {s t : State} (h : s.Inv) (he : s.engine = .idle) (ht : exec .init s = .next t) :
    t.Inv := by
  obtain ⟨m, rfl, hr, hw⟩ := exec_init_cases ht
  refine ⟨hw h.canonical, .inr fun i hi => ⟨initByte i, (hr i).trans (if_pos hi)⟩, fun b hb => ?_, by simp,
    h.framesWhole, h.cutFramesShort, h.idleStream, fun i hi => ?_⟩
  · rw [clearErrors_fb, hr, if_pos (by decide), initByte_zero] at hb
    exact (Option.some.inj hb).symm
  · rw [clearErrors_engine] at hi
    simp [he] at hi

/-- A drawing command, accepted by an idle engine, leaves a state of the invariant. -/
theorem State.Inv.exec_drawing {i : Instr} (h1 : i ≠ .init) (h2 : i ≠ .frameOut) {s t : State} (h : s.Inv)
    (he : s.engine = .idle) (ht : exec i s = .next t) : t.Inv := by
  obtain ⟨v, hv⟩ := Machine.exec_drawing h1 h2
  have hdraw := (hv s).symm.trans ht
  have hd := drawPoints_drawn hdraw
  have hwf := drawPoints_wf hdraw h.canonical
  have hholds := drawPoints_holds hdraw
  obtain ⟨hill, heng, -, hfl, hfr, hcut, -⟩ := hd.frame
  refine ⟨hwf, ?_, fun b hb => ?_, fun hf => ?_, hfr ▸ h.framesWhole, hcut ▸ h.cutFramesShort,
    fun _ => hfl.trans (h.idleStream he), fun k hk => ?_⟩
  · rcases h.wholeOrEmpty with hnil | hinit
    · refine .inl (Memory.ext_read hwf rfl fun k => ?_)
      cases hk : t.fb.read k with
      | none => rfl
      | some b =>
        obtain ⟨c, hc⟩ := (hholds k).1 ⟨b, hk⟩
        simp [hnil] at hc
    · exact .inr fun k hk => (hholds k).2 (hinit k hk)
  · exact h.marker b ((hd.outsidePlane 0 (.inl rfl)).symm.trans hb)
  · rw [hd.range, hill] at hf
    rw [hd.ghost]
    rcases hf with (hf | hout) | hf
    · exact .inl (h.recorded (.inl hf))
    · exact .inr hout
    · exact .inl (h.recorded (.inr hf))
  · rw [heng, he] at hk
    cases hk

/-- The emission of a frame from byte `i` on, with the bytes before it taken, leaves a state of the invariant: the frame
is whole and joins the frames emitted, or the engine waits with a byte on offer (R91, R157). -/
theorem State.Inv.emitFrom {count i : Nat} {s t : State} (h : s.Inv) (hi : i + count = Config.bufLen)
    (hlen : s.inFlight.length = i) (hread : ∀ j, j < i → s.fb.read j = s.inFlight[j]?)
    (ht : emitFrom count i s = .next t) : t.Inv := by
  obtain ⟨bs, hbs, hcase⟩ := emitFrom_cases ht
  have htaken : ∀ j, j < i + bs.length → s.fb.read j = (s.inFlight ++ bs)[j]? := fun j hj => by
    rcases Nat.lt_or_ge j i with hji | hij
    · rw [List.getElem?_append_left (hlen.symm ▸ hji), hread j hji]
    · rw [List.getElem?_append_right (hlen.symm ▸ hij), hlen, ← hbs (j - i) (by omega), Nat.add_sub_cancel' hij]
  have htotal : (s.inFlight ++ bs).length = i + bs.length := by rw [List.length_append, hlen]
  rcases hcase with ⟨hall, -, rfl⟩ | ⟨-, hlt, ⟨b, hb⟩, -, rfl⟩
  · refine ⟨h.canonical, h.wholeOrEmpty, h.marker, h.recorded, fun f hf => ?_, h.cutFramesShort, fun _ => rfl,
      fun k hk => by simp at hk⟩
    rcases List.mem_append.1 hf with hf | hf
    · exact h.framesWhole f hf
    · have hfull : (s.inFlight ++ bs).length = Config.bufLen := by rw [htotal, hall, hi]
      obtain rfl := List.mem_singleton.1 hf
      refine ⟨hfull, ?_⟩
      cases hzero : (s.inFlight ++ bs).head? with
      | none => simp [List.head?_eq_none_iff.1 hzero] at hfull
      | some c =>
        rw [List.head?_eq_getElem?, ← htaken 0 (by rw [← htotal, hfull]; decide)] at hzero
        rw [h.marker c hzero]
  · have hinit : s.initialised := h.wholeOrEmpty.resolve_left fun hnil => by simp [hnil] at hb
    refine ⟨h.canonical, .inr hinit, h.marker, h.recorded, h.framesWhole, h.cutFramesShort, (fun hk => by cases hk),
      fun k hk => ?_⟩
    obtain rfl := Engine.emitting.inj hk
    exact ⟨hlt, hinit, htotal, htaken⟩

/-- Any command, accepted by an idle engine, leaves a state of the invariant. -/
theorem State.Inv.exec {i : Instr} {s t : State} (h : s.Inv) (he : s.engine = .idle) (ht : exec i s = .next t) :
    t.Inv := by
  by_cases h1 : i = .init
  · exact h.exec_init he (h1 ▸ ht)
  by_cases h2 : i = .frameOut
  · subst h2
    have hs : { s with inFlight := [] } = s := by rw [← h.idleStream he]
    refine h.emitFrom (count := Config.bufLen) (i := 0) (Nat.zero_add _) (by rw [h.idleStream he]; rfl)
      (fun j hj => absurd hj (Nat.not_lt_zero j)) ?_
    rw [← hs]
    exact ht
  exact h.exec_drawing h1 h2 he ht

/-- Settles O12: each thing a step can do keeps the invariant. -/
theorem stepKeepsInvariant : Obligations.StepKeepsInvariant := by
  intro s t h ht
  have ha := h.afterHost
  rcases step_cases s with ⟨ms, -, hs⟩ | ⟨-, i, he, hs⟩ | ⟨-, -, -, hs⟩ | ⟨-, he, w, ws, -, ⟨e, -, hs⟩ | ⟨i, -, hs⟩⟩ <;>
    rw [hs] at ht
  · cases ht
    exact (h.ports s.words s.consumer ms).resetBlock
  · obtain ⟨hi, -, hlen, hread⟩ := ha.busyStream i he
    exact ha.emitFrom (Nat.add_sub_cancel' hi.le) hlen hread ht
  · cases ht
    exact ha
  · cases ht
    exact (ha.ports ws _ _).raise_illegal
  · exact ((ha.ports ws _ _).latch w).exec he ht

/-- Settles O11: a block after reset holds no value, has no flag set and no frame in flight. -/
theorem resetInvariant : Obligations.ResetInvariant where
  canonical := rfl
  wholeOrEmpty := .inl rfl
  marker := fun _ hb => by simp [State.reset] at hb
  recorded := fun hf => by simp [State.reset] at hf
  framesWhole := fun _ hf => by simp [State.reset] at hf
  cutFramesShort := fun _ hf => by simp [State.reset] at hf
  idleStream := fun _ => rfl
  busyStream := fun _ he => by simp [State.reset] at he

/-! ### Once FB holds values -/

/-- No step but reset takes a value away from a cell (R31). -/
theorem step_keeps_holds {s t : State} (ht : step s = .next t) (hr : s.resetNext = false) {k : Nat}
    (hk : s.holds k) : t.holds k := by
  have hk' : s.afterHost.holds k := by rwa [State.holds, afterHost_fb]
  rcases step_cases s with ⟨ms, hm, -⟩ | ⟨-, i, -, hs⟩ | ⟨-, -, -, hs⟩ | ⟨-, -, w, ws, -, ⟨e, -, hs⟩ | ⟨i, -, hs⟩⟩
  · simp [resetNext_iff.2 ⟨ms, hm⟩] at hr
  all_goals rw [hs] at ht
  · rw [emitFrom_frame ht]
    exact hk'
  · cases ht
    exact hk'
  · cases ht
    exact hk'
  · exact exec_keeps_holds (s := latch w { s.afterHost with words := ws }) ht hk'

/-- Settles O26: a step stops only on a cell that holds no value, and only reset makes such cells. -/
theorem initialisedBufferNeverFaults : Obligations.InitialisedBufferNeverFaults := by
  intro s _ hinit
  by_contra hno
  have hstop : ∀ t, step s ≠ .next t := fun t ht =>
    hno ⟨t, ht, fun hr k hk => step_keeps_holds ht hr (hinit k hk)⟩
  obtain ⟨k, hk, hnone, -⟩ := step_stops hstop
  obtain ⟨b, hb⟩ := hinit k hk
  simp [hnone] at hb

/-- Settles O25: a step that gives no next state has read a cell of FB that holds no value. -/
theorem onlyUnwrittenCellsStopAStep : Obligations.OnlyUnwrittenCellsStopAStep := by
  intro s
  by_contra hno
  rw [not_or] at hno
  obtain ⟨hnext, hfault⟩ := hno
  obtain ⟨k, hk, -, he⟩ := step_stops fun t ht => hnext ⟨t, ht⟩
  exact hfault ⟨k, hk, he⟩

end Sys2Proof.Machine
end

section
/-! PROOFS for 00_scope.md, 10_state.md and 70_reset_and_hazards.md: the parameter set, reset, the sequencer and the
ports. -/

namespace Sys2Proof.Machine

/-! ### The parameter set and reset -/

theorem geometry_wf_iff (g : Geometry) :
    g.wf = true ↔ g.height % 8 = 0 ∧ g.height / 8 = 8 ∧ 1 ≤ g.width ∧ g.width ≤ 128 := by
  simp [Geometry.wf, Geometry.pages, and_assoc]

theorem geometry_build_eq_none_iff (g : Geometry) : g.build = none ↔ ¬ g.wf = true := by
  simp [Geometry.build]

/-- Settles O9: a parameter set is refused exactly when it is ill formed, and that of this block by evaluation. -/
theorem geometryRefusedUnlessWellFormed : Obligations.GeometryRefusedUnlessWellFormed :=
  ⟨fun g => (geometry_build_eq_none_iff g).trans (not_congr (geometry_wf_iff g)), Config.geometry_built, by decide,
    Config.bufLen_of_geometry⟩

/-- STATUS is made of BUSY and the two flags (R23). -/
theorem status_congr {s t : State} (he : s.engine = t.engine) (hr : s.rangeErr = t.rangeErr)
    (hi : s.illegalErr = t.illegalErr) : s.status = t.status := by
  simp only [State.status, State.busy, he, hr, hi]

theorem status_reset : State.reset.status = 0 := by decide

/-- Settles O10: the values of State.reset. -/
theorem resetValues : Obligations.ResetValues :=
  ⟨Memory.read_nil, status_reset, rfl, rfl, rfl, rfl⟩

/-- Settles O13: the step is the reset of the block, whose fields are the values of reset or those of the outside
world. -/
theorem resetFromAnyState : Obligations.ResetFromAnyState := by
  intro s ms hm
  refine ⟨_, step_of_reset hm, fun _ => rfl, (status_congr rfl rfl rfl).trans status_reset, rfl, rfl, rfl,
    fun i he => ?_, rfl, rfl, rfl, rfl⟩
  rw [resetBlock_cutFrames]
  simp only [he]

/-! ### The engine's action -/

/-- An idle engine that is offered a legal word takes it off the port, latches its fields and executes it (R26, R176). -/
theorem step_legal_word {s : State} {w : CmdWord} {ws : List CmdWord} {i : Instr} (hr : s.resetNext = false)
    (he : s.afterHost.engine = .idle) (hw : s.afterHost.words = w :: ws) (hd : decode w = .ok i) :
    step s = exec i (latch w { s.afterHost with words := ws }) := by
  rw [step_of_not_reset hr]
  simp only [engineTurn, he, hw, accept, hd]

theorem step_idle_no_word {s : State} (hr : s.resetNext = false) (he : s.afterHost.engine = .idle)
    (hw : s.afterHost.words = []) : step s = .next s.afterHost := by
  rw [step_of_not_reset hr]
  simp only [engineTurn, he, hw]

/-- A busy engine goes on with its frame whatever the host has moved, unless that is reset (R157, R178). -/
theorem step_emitting {s : State} {i : Nat} (hr : s.resetNext = false) (he : s.afterHost.engine = .emitting i) :
    step s = resumeFrame i s.afterHost := by
  rw [step_of_not_reset hr]
  simp only [engineTurn, he]

/-- Settles O14: the step of an idle engine on a legal word. -/
theorem stepExecutesDecodedWord : Obligations.StepExecutesDecodedWord := by
  intro s w ws i hr he hw hd
  rw [step_legal_word hr he hw hd]
  rfl

theorem decode_of_decodeTableWord {w : Nat} {i : Instr} (h : decodeTableWord 40 w = some i) :
    decode (BitVec.ofNat 40 (w % 2 ^ 40)) = .ok i := by
  unfold decodeTableWord at h
  rw [if_pos le_rfl] at h
  split at h
  · rename_i hd
    rw [hd, Option.some.inj h]
  · cases h

/-- The state that offers a word next executes it in its next step (log 7). -/
theorem step_offerNext {s : State} {w : CmdWord} {i : Instr} (hd : decode w = .ok i) :
    step (offerNext w s) = exec i (latch w { s with engine := .idle, inFlight := [] }) :=
  step_legal_word (s := offerNext w s) rfl rfl rfl hd

/-- Settles O15: the step of the state that offers the word of the table next. -/
theorem fetchWordRunsNext : Obligations.FetchWordRunsNext := by
  intro s w i h
  have hd := decode_of_decodeTableWord h
  rw [State.withFetchWord, step_offerNext hd]

/-- Settles O16: the step of an idle engine with no word, and the host's move on the fields of the block. -/
theorem idleWithoutWordDoesNothing : Obligations.IdleWithoutWordDoesNothing := fun s hr he hw =>
  ⟨step_idle_no_word hr he hw, afterHost_fb s,
    status_congr (afterHost_engine s) (afterHost_rangeErr s) (afterHost_illegalErr s), afterHost_frames s⟩

/-- Settles O17: going on with a frame changes the stream, the consumer and the engine only. -/
theorem noCommandDuringFrame : Obligations.NoCommandDuringFrame := by
  intro s t i hr he ht
  rw [step_emitting hr he] at ht
  refine ⟨by simp only [cmdReady, State.busy, he, Bool.not_true], ?_⟩
  rw [emitFrom_frame ht]
  exact ⟨rfl, afterHost_latches s, afterHost_fb s, afterHost_rangeErr s, afterHost_illegalErr s⟩

/-! ### The output signals -/

theorem busy_iff {s : State} : s.busy = true ↔ ∃ i, s.engine = .emitting i := by
  cases h : s.engine <;> simp [State.busy, h]

theorem status_getLsbD_one (s : State) : s.status.getLsbD 1 = s.rangeErr := by
  simp [State.status]

theorem status_getLsbD_two (s : State) : s.status.getLsbD 2 = s.illegalErr := by
  simp [State.status]

theorem status_getLsbD_reserved (s : State) {b : Nat} (hb : 3 ≤ b) : s.status.getLsbD b = false := by
  have h0 : b ≠ 0 := by omega
  have h1 : b - 1 ≠ 0 := by omega
  have h2 : b - 2 ≠ 0 := by omega
  simp [State.status, h0, h1, h2]

/-- Settles O18, bit by bit. -/
theorem statusBits : Obligations.StatusBits := by
  intro s
  refine ⟨?_, status_getLsbD_one s, status_getLsbD_two s, fun b => status_getLsbD_reserved s, ?_⟩
  · rw [status_getLsbD_zero, busy_iff]
  · rw [status_getLsbD_zero, cmdReady]

/-- Settles O19: the invariant puts the index on offer inside FB, where every cell holds a value. -/
theorem frameOutputPort : Obligations.FrameOutputPort := by
  refine fun s h => ⟨busy_iff, fun i he => ?_, fun he => ?_⟩
  · obtain ⟨hi, hinit, -, -⟩ := h.busyStream i he
    obtain ⟨b, hb⟩ := hinit i hi
    refine ⟨Nat.le_of_lt_succ hi, ⟨b, ?_, hb⟩, ?_⟩
    · simpa only [foData, he] using hb
    · simp [foLast, he]
  · simp [foData, foLast, he]

end Sys2Proof.Machine
end

section
/-! PROOFS for 20_memory.md: the address decoder (R44) and its inverse (R50). -/

namespace Sys2Proof.Machine

/-- Two adjoining bit fields as a number: the high one times the size of the low one, and the low one. -/
theorem ofNat_eq_append {m n a b : Nat} (ha : a < 2 ^ m) (hb : b < 2 ^ n) :
    BitVec.ofNat (m + n) (a * 2 ^ n + b) = BitVec.ofNat m a ++ BitVec.ofNat n b := by
  apply BitVec.eq_of_toNat_eq
  have hlt : a * 2 ^ n + b < 2 ^ (m + n) := by
    rw [Nat.pow_add]
    calc a * 2 ^ n + b < a * 2 ^ n + 2 ^ n := by omega
      _ = (a + 1) * 2 ^ n := by ring
      _ ≤ 2 ^ m * 2 ^ n := Nat.mul_le_mul_right _ ha
  rw [BitVec.toNat_append, BitVec.toNat_ofNat, BitVec.toNat_ofNat, BitVec.toNat_ofNat, Nat.mod_eq_of_lt hlt,
    Nat.mod_eq_of_lt ha, Nat.mod_eq_of_lt hb, ← Nat.shiftLeft_add_eq_or_of_lt hb, Nat.shiftLeft_eq]

/-- Bits 5:3 of a row number (R44). -/
theorem row_bits_high {y : Nat} (hy : y < 64) : (BitVec.ofNat 6 y).extractLsb' 3 3 = BitVec.ofNat 3 (y / 8) := by
  apply BitVec.eq_of_toNat_eq
  rw [BitVec.extractLsb'_toNat, BitVec.toNat_ofNat, BitVec.toNat_ofNat, Nat.mod_eq_of_lt hy, Nat.shiftRight_eq_div_pow]

/-- Bits 2:0 of a row number (R44). -/
theorem row_bits_low {y : Nat} (hy : y < 64) : (BitVec.ofNat 6 y).extractLsb' 0 3 = BitVec.ofNat 3 (y % 8) := by
  apply BitVec.eq_of_toNat_eq
  rw [BitVec.extractLsb'_toNat, BitVec.toNat_ofNat, BitVec.toNat_ofNat, Nat.mod_eq_of_lt hy, Nat.shiftRight_zero,
    Nat.mod_mod]

/-- The address decoder in arithmetic, and its range (R44). -/
theorem cell_arith {x y : Nat} (hx : x < 128) (hy : y < 64) :
    (cellIndex x y : Int) = y / 8 + 8 * x + 1 ∧ (cellBit x y : Int) = y % 8 ∧ 1 ≤ cellIndex x y ∧
      cellIndex x y ≤ 1024 ∧ cellBit x y ≤ 7 := by
  rw [cellIndex_eq, cellBit_eq, Int.toNat_natCast, Int.toNat_natCast]
  omega

/-- The address decoder as a concatenation of bits (R44). -/
theorem cell_bits {x y : Nat} (hx : x < 128) (hy : y < 64) :
    BitVec.ofNat 10 (cellIndex x y - 1) = BitVec.ofNat 7 x ++ (BitVec.ofNat 6 y).extractLsb' 3 3 ∧
      BitVec.ofNat 3 (cellBit x y) = (BitVec.ofNat 6 y).extractLsb' 0 3 := by
  have hindex : cellIndex x y - 1 = x * 2 ^ 3 + y / 8 := by
    rw [cellIndex_eq, Int.toNat_natCast, Int.toNat_natCast]
    omega
  rw [row_bits_high hy, row_bits_low hy, hindex, cellBit_eq, Int.toNat_natCast]
  exact ⟨ofNat_eq_append (m := 7) hx (by omega), rfl⟩

theorem pixelX_eq (i : Nat) : pixelX i = ((i - 1) / 8 : Nat) := by
  rw [pixelX, Nat.shiftRight_eq_div_pow]

theorem pixelY_eq (i b : Nat) : pixelY i b = (8 * ((i - 1) % 8) + b : Nat) := by
  rw [pixelY, Nat.and_two_pow_sub_one_eq_mod _ 3]

/-- The inverse map gives a pixel of the grid, which the address decoder takes back (R50). -/
theorem cell_of_pixel {i b : Nat} (h1 : 1 ≤ i) (h2 : i ≤ 1024) (hb : b ≤ 7) :
    inGrid (pixelX i) (pixelY i b) = true ∧ cellIndex (pixelX i) (pixelY i b) = i ∧
      cellBit (pixelX i) (pixelY i b) = b := by
  rw [inGrid_iff, cellIndex_eq, cellBit_eq, pixelX_eq, pixelY_eq]
  omega

/-- The inverse map takes the cell and the bit of a grid point back to the point (R50). -/
theorem pixel_of_cell {x y : Int} (h : inGrid x y = true) :
    pixelX (cellIndex x y) = x ∧ pixelY (cellIndex x y) (cellBit x y) = y := by
  obtain ⟨h1, h2, h3, h4⟩ := inGrid_iff.1 h
  rw [pixelX_eq, pixelY_eq, cellIndex_eq, cellBit_eq]
  omega

/-- The pixel of a cell and a bit is that bit of the cell (R50). -/
theorem pixel_of_inverse (s : State) {i b : Nat} (h1 : 1 ≤ i) (h2 : i ≤ 1024) (hb : b ≤ 7) :
    s.pixel (pixelX i) (pixelY i b) = (s.fb.read i).map fun c => c.getLsbD b := by
  obtain ⟨-, hi, hbit⟩ := cell_of_pixel h1 h2 hb
  rw [State.pixel, hi, hbit]

/-- Settles O20: on natural coordinates, by the arithmetic of the decoder and the bits of a sum. -/
theorem addressDecoder : Obligations.AddressDecoder := by
  refine ⟨fun x y hx0 hx hy0 hy => ?_, fun x y x' y' h1 h2 h3 h4 g1 g2 g3 g4 hi hb => ?_, fun i b h1 h2 hb => ?_,
    by decide, by decide, by decide, by decide, by decide⟩
  · obtain ⟨x, rfl⟩ := Int.eq_ofNat_of_zero_le hx0
    obtain ⟨y, rfl⟩ := Int.eq_ofNat_of_zero_le hy0
    obtain ⟨hindex, hbit, hrange⟩ := cell_arith (x := x) (y := y) (by omega) (by omega)
    obtain ⟨hcat, hlow⟩ := cell_bits (x := x) (y := y) (by omega) (by omega)
    exact ⟨hindex, hbit, hcat, hlow, hrange⟩
  · exact cell_injective (inGrid_iff.2 ⟨h1, h2, h3, h4⟩) (inGrid_iff.2 ⟨g1, g2, g3, g4⟩) hi hb
  · obtain ⟨hg, hi, hbit⟩ := cell_of_pixel h1 h2 hb
    obtain ⟨hx0, hx, hy0, hy⟩ := inGrid_iff.1 hg
    exact ⟨_, _, hx0, hx, hy0, hy, hi, hbit⟩

/-- Settles O21: the two maps are inverse to each other, and a pixel is read through them. -/
theorem inverseAddressMap : Obligations.InverseAddressMap := by
  refine ⟨fun i b => cell_of_pixel, fun x y => pixel_of_cell, fun s i b h1 h2 hb => ?_⟩
  rw [pixel_of_inverse s h1 h2 hb, Option.map_eq_some_iff]

end Sys2Proof.Machine
end

section
/-! PROOFS for 20_memory.md, 10_state.md and 42_rasterizer.md: when a command faults (R31), what it does not read (FB[0],
R47; the flags, R25), and that a drawing depends only on the set of its coordinates (R108). -/

namespace Sys2Proof.Machine

/-! ### When a drawing command faults -/

/-- A drawing that completes has found a value in every cell it reached. -/
theorem drawPoints_reads {ps : List Point} {v : Bool} {s t : State} (h : drawPoints ps v s = .next t) {p : Point}
    (hp : p ∈ ps) (hg : inGrid p.x p.y = true) : s.holds (cellIndex p.x p.y) := by
  have hpix := (drawPoints_drawn h).visited p.x p.y hg hp
  obtain ⟨c, hc, -⟩ := Option.map_eq_some_iff.1 hpix
  exact (drawPoints_holds h _).1 ⟨c, hc⟩

/-- Settles O24: a drawing that reaches a cell without a value cannot complete, and one that reaches none cannot stop. -/
theorem faultsExactlyOnUnwrittenCells : Obligations.FaultsExactlyOnUnwrittenCells := by
  refine ⟨fun i s h1 h2 => ?_, fun s => exec_frameOut_unwritten⟩
  obtain ⟨v, hv⟩ := exec_drawing h1 h2
  rw [hv]
  constructor
  · rintro ⟨p, hp, hg, hnone⟩
    refine drawPoints_stops fun t ht => ?_
    obtain ⟨b, hb⟩ := drawPoints_reads ht hp hg
    simp [hnone] at hb
  · exact fun h => drawPoints_completes fun x y hxy => h ⟨x, y⟩ hxy

/-! ### Two runs side by side -/

/-- Two outcomes that go together: next states related by `R`, or the same fault or refusal. -/
inductive Lockstep (R : State → State → Prop) : Result → Result → Prop where
  | next {s t : State} (h : R s t) : Lockstep R (.next s) (.next t)
  | fault (e : Fault) : Lockstep R (.fault e) (.fault e)
  | refused (e : Refusal) : Lockstep R (.refused e) (.refused e)

/-- A relation that PixelWrite and INIT keep, and through which they do the same: related states read the same outside
FB[0], and stay related when the same byte is written or the same is done to the flags. -/
structure Unseen (R : State → State → Prop) : Prop where
  read : ∀ {s t : State} {k : Nat}, R s t → k ≠ 0 → t.fb.read k = s.fb.read k
  write : ∀ {s t : State} (k : Nat) (b : Byte), R s t →
    R { s with fb := s.fb.write k b } { t with fb := t.fb.write k b }
  raise : ∀ {s t : State}, R s t → R (raise .rangeError s) (raise .rangeError t)
  clear : ∀ {s t : State}, R s t → R (clearErrors s) (clearErrors t)

section lockstep
variable {R : State → State → Prop}

theorem Lockstep.exists_next {r r' : Result} {t : State} (h : Lockstep R r r') (hr : r = .next t) :
    ∃ t', r' = .next t' ∧ R t t' := by
  cases h <;> cases hr
  exact ⟨_, rfl, ‹_›⟩

theorem Lockstep.same_fault {r r' : Result} {e : Fault} (h : Lockstep R r r') (hr : r = .fault e) :
    r' = .fault e := by
  cases h <;> cases hr
  rfl

theorem Lockstep.andThen {r r' : Result} {f : State → Result} (h : Lockstep R r r')
    (hf : ∀ {s t : State}, R s t → Lockstep R (f s) (f t)) : Lockstep R (andThen r f) (andThen r' f) := by
  cases h with
  | next h => exact hf h
  | fault e => exact .fault e
  | refused e => exact .refused e

theorem Lockstep.forEach {α : Type} {f : α → State → Result}
    (hf : ∀ (a : α) {s t : State}, R s t → Lockstep R (f a s) (f a t)) (as : List α) {s t : State} (h : R s t) :
    Lockstep R (forEach f as s) (forEach f as t) := by
  induction as generalizing s t with
  | nil => exact .next h
  | cons a as ih => exact (hf a h).andThen ih

theorem Unseen.memWrite (hR : Unseen R) (k : Nat) (b : Byte) {s t : State} (h : R s t) :
    Lockstep R (memWrite k b s) (memWrite k b t) := by
  unfold Machine.memWrite
  split
  · exact .next (hR.write k b h)
  · exact .fault _

theorem Unseen.pixelWrite (hR : Unseen R) (x y : Int) (v : Bool) {s t : State} (h : R s t) :
    Lockstep R (pixelWrite x y v s) (pixelWrite x y v t) := by
  cases hg : inGrid x y with
  | false =>
    rw [pixelWrite_outGrid hg, pixelWrite_outGrid hg]
    exact .next (hR.raise h)
  | true =>
    have hread := hR.read h (Nat.ne_of_gt (cellIndex_pos x y))
    cases ho : s.fb.read (cellIndex x y) with
    | none =>
      rw [pixelWrite_unwritten hg ho, pixelWrite_unwritten hg (hread.trans ho)]
      exact .fault _
    | some old =>
      rw [pixelWrite_inGrid hg ho, pixelWrite_inGrid hg (hread.trans ho)]
      exact .next (hR.write _ _ h)

theorem Unseen.execInit (hR : Unseen R) {s t : State} (h : R s t) : Lockstep R (execInit s) (execInit t) := by
  unfold Machine.execInit
  refine Lockstep.andThen (Lockstep.forEach (fun k _ _ => ?_) _ h) fun h' => .next (hR.clear h')
  exact hR.memWrite k (initByte k)

/-- Every command but FRAME_OUT does the same to related states. -/
theorem Unseen.exec (hR : Unseen R) {i : Instr} (hi : i ≠ .frameOut) {s t : State} (h : R s t) :
    Lockstep R (exec i s) (exec i t) := by
  by_cases h1 : i = .init
  · subst h1
    exact hR.execInit h
  · obtain ⟨v, hv⟩ := exec_drawing h1 hi
    rw [hv, hv]
    exact Lockstep.forEach (fun p _ _ => hR.pixelWrite p.x p.y v) _ h

end lockstep

/-! ### FB[0] -/

/-- The same state but for FB[0]. -/
def SameButMarker (s t : State) : Prop := t = { s with fb := t.fb } ∧ ∀ k, k ≠ 0 → t.fb.read k = s.fb.read k

/-- PixelWrite and INIT do not read FB[0] (R47). -/
theorem sameButMarker_unseen : Unseen SameButMarker where
  read := fun ⟨_, hr⟩ hk => hr _ hk
  write := fun {s t} k b ⟨ht, hr⟩ => by
    refine ⟨by rw [ht], fun j hj => ?_⟩
    rw [Memory.read_write, Memory.read_write, hr j hj]
  raise := fun {s t} ⟨ht, hr⟩ => ⟨by rw [ht]; rfl, hr⟩
  clear := fun {s t} ⟨ht, hr⟩ => ⟨by rw [ht]; rfl, hr⟩

theorem pixelWrite_marker {x y : Int} {v : Bool} {s t : State} (h : pixelWrite x y v s = .next t) :
    t.fb.read 0 = s.fb.read 0 :=
  (pixelWrite_drawn h).outsidePlane 0 (.inl rfl)

theorem exec_marker {i : Instr} (h1 : i ≠ .init) {s t : State} (h : exec i s = .next t) :
    t.fb.read 0 = s.fb.read 0 := by
  by_cases h2 : i = .frameOut
  · subst h2
    rw [exec_frameOut_frame h]
  · obtain ⟨v, hd⟩ := exec_drawn h1 h2 h
    exact hd.outsidePlane 0 (.inl rfl)

/-- Settles O27: PixelWrite reaches plane cells only, so two states that differ in FB[0] go through a command side by
side. -/
theorem markerCellUntouched : Obligations.MarkerCellUntouched := by
  refine ⟨fun i s t h1 => exec_marker h1, fun x y v s t => pixelWrite_marker, fun i s m hi hm => ?_⟩
  have hstart : SameButMarker s { s with fb := m } := ⟨rfl, hm⟩
  have hlock := sameButMarker_unseen.exec hi hstart
  refine ⟨fun t ht => ?_, fun e he => hlock.same_fault he⟩
  obtain ⟨t', ht', heq, hread⟩ := hlock.exists_next ht
  exact ⟨t'.fb, heq ▸ ht', hread⟩

/-! ### The flags -/

/-- The same state but for the flags and the ghost bit. -/
structure SameButFlags (s t : State) : Prop where
  eq : t = { s with rangeErr := t.rangeErr, illegalErr := t.illegalErr, faultRecorded := t.faultRecorded }

theorem SameButFlags.fb {s t : State} (h : SameButFlags s t) : t.fb = s.fb := by
  rw [h.eq]

theorem SameButFlags.consumer {s t : State} (h : SameButFlags s t) : t.consumer = s.consumer := by
  rw [h.eq]

/-- PixelWrite and INIT do not read a flag (R25). -/
theorem sameButFlags_unseen : Unseen SameButFlags where
  read := fun h _ => by rw [h.fb]
  write := fun _ _ h => ⟨by rw [h.eq]⟩
  raise := fun h => ⟨by rw [h.eq]; rfl⟩
  clear := fun h => ⟨by rw [h.eq]; rfl⟩

/-- The emission of a frame does not read a flag (R25). -/
theorem emitFrom_lockstep {count i : Nat} {s t : State} (h : SameButFlags s t) :
    Lockstep SameButFlags (emitFrom count i s) (emitFrom count i t) := by
  induction count generalizing i s t with
  | zero => exact .next ⟨by rw [h.eq]; rfl⟩
  | succ count ih =>
    have hread : memRead i t = memRead i s := by simp only [memRead, h.fb]
    unfold emitFrom
    rw [hread, h.consumer]
    cases memRead i s with
    | error e => exact .fault e
    | ok b =>
      cases s.consumer.take with
      | none => exact .next ⟨by rw [h.eq]⟩
      | some c => exact ih ⟨by rw [h.eq]; rfl⟩

theorem exec_lockstep_flags (i : Instr) {s t : State} (h : SameButFlags s t) :
    Lockstep SameButFlags (exec i s) (exec i t) := by
  by_cases hi : i = .frameOut
  · subst hi
    exact emitFrom_lockstep (s := { s with inFlight := [] }) (t := { t with inFlight := [] }) ⟨by rw [h.eq]⟩
  · exact sameButFlags_unseen.exec hi h

/-- Settles O55: two states that differ in the flags go through a command side by side. -/
theorem noCommandReadsAFlag : Obligations.NoCommandReadsAFlag := by
  intro i s r l g
  have hstart : SameButFlags s { s with rangeErr := r, illegalErr := l, faultRecorded := g } := ⟨rfl⟩
  have hlock := exec_lockstep_flags i hstart
  refine ⟨fun t ht => ?_, fun e he => hlock.same_fault he⟩
  obtain ⟨t', ht', hsame⟩ := hlock.exists_next ht
  exact ⟨t', ht', hsame.eq⟩

/-! ### A drawing as a set of coordinates -/

/-- Cells of the plane with the same pixels hold the same. -/
theorem read_eq_of_pixels {s t : State} (h : ∀ x y, inGrid x y = true → s.pixel x y = t.pixel x y) {i : Nat}
    (h1 : 1 ≤ i) (h2 : i ≤ 1024) : s.fb.read i = t.fb.read i := by
  have hbits : ∀ b, b ≤ 7 → (s.fb.read i).map (fun c => c.getLsbD b) = (t.fb.read i).map (fun c => c.getLsbD b) :=
    fun b hb => by
      rw [← pixel_of_inverse s h1 h2 hb, ← pixel_of_inverse t h1 h2 hb]
      exact h _ _ (cell_of_pixel h1 h2 hb).1
  cases hs : s.fb.read i <;> cases ht : t.fb.read i <;> simp only [hs, ht, Option.map_none, Option.map_some] at hbits
  · rfl
  · cases hbits 0 (by decide)
  · cases hbits 0 (by decide)
  · exact congrArg some (BitVec.eq_of_getLsbD_eq fun b hb => Option.some.inj (hbits b (by omega)))

/-- What a drawing leaves is determined by the set of coordinates it visits (R108). -/
theorem Drawn.unique {s t u : State} {P : Int → Int → Prop} {v : Bool} (ht : Drawn s t P v) (hu : Drawn s u P v)
    (hwt : t.fb.wf = true) (hwu : u.fb.wf = true) : t = u := by
  have hpix : ∀ x y, inGrid x y = true → t.pixel x y = u.pixel x y := fun x y hg => by
    by_cases hP : P x y
    · rw [ht.visited x y hg hP, hu.visited x y hg hP]
    · rw [ht.notVisited x y hg hP, hu.notVisited x y hg hP]
  have hfb : t.fb = u.fb := Memory.ext_read hwt hwu fun i => by
    by_cases hi : i = 0 ∨ Config.bufLen ≤ i
    · rw [ht.outsidePlane i hi, hu.outsidePlane i hi]
    · rw [not_or, not_le] at hi
      exact read_eq_of_pixels hpix (Nat.pos_of_ne_zero hi.1) (Nat.le_of_lt_succ hi.2)
  have hrange : t.rangeErr = u.rangeErr := Bool.eq_iff_iff.2 (ht.range.trans hu.range.symm)
  have hghost : t.faultRecorded = u.faultRecorded := Bool.eq_iff_iff.2 (ht.ghost.trans hu.ghost.symm)
  rw [ht.rest, hu.rest, hfb, hrange, hghost]

/-- A drawing command draws its coordinates with the V of its word (R13, R108). -/
theorem exec_eq_drawPoints {i : Instr} (h1 : i ≠ .init) (h2 : i ≠ .frameOut) (s : State) :
    exec i s = drawPoints (drawnPoints i) (CmdWord.v (encode i)) s := by
  cases i with
  | init => exact absurd rfl h1
  | frameOut => exact absurd rfl h2
  | pixel x y v =>
    rw [encode, v_packWord, exec_pixel]
    rfl
  | _ =>
    rw [encode, v_packWord]
    rfl

/-- Settles O28: a list with the same members is as readable, and leaves what its set of coordinates determines. -/
theorem drawingDependsOnSetOnly : Obligations.DrawingDependsOnSetOnly := by
  refine ⟨fun i s h1 h2 => exec_eq_drawPoints h1 h2 s, fun ps qs v s t hwf hmem ht => ?_⟩
  have hdrawn := drawPoints_drawn ht
  obtain ⟨u, hu⟩ := drawPoints_completes (ps := qs) (v := v) (s := s)
    fun x y hxy hg => drawPoints_reads ht ((hmem ⟨x, y⟩).2 hxy) hg
  have hdrawn' := (drawPoints_drawn hu).congr fun x y => (hmem ⟨x, y⟩).symm
  rw [hdrawn.unique hdrawn' (drawPoints_wf ht hwf) (drawPoints_wf hu hwf)]
  exact ⟨hu, hdrawn'⟩

end Sys2Proof.Machine
end

section
/-! PROOFS for 60_exceptions.md and the frames of the commands: what sets and clears a flag (R143, R147, R149, R158), and
what each command leaves unchanged. -/

namespace Sys2Proof.Machine

/-! ### Frames of the commands -/

/-- Settles O56: from the drawing of the command's points. -/
theorem drawingFrame : Obligations.DrawingFrame := by
  intro i s t h1 h2 h
  obtain ⟨v, hv⟩ := exec_drawing h1 h2
  have hdraw := (hv s).symm.trans h
  have hd := drawPoints_drawn hdraw
  exact ⟨fun k hk => drawPoints_cells hdraw fun p hp hg => (hk p hp hg).symm, fun hr => hd.range.2 (.inl hr), hd.frame⟩

/-- Settles O57: from everything INIT and the emission of a frame can do. -/
theorem initAndFrameOutFrame : Obligations.InitAndFrameOutFrame := by
  refine ⟨fun s t h => ?_, fun s t => exec_frameOut_frame⟩
  obtain ⟨m, rfl, hr, -⟩ := exec_init_cases h
  exact ⟨fun k hk => (hr k).trans (if_neg (Nat.not_lt_of_le hk)), rfl⟩

/-! ### What a command does to the flags -/

theorem exec_init_flags {s t : State} (h : exec .init s = .next t) :
    t.rangeErr = false ∧ t.illegalErr = false ∧ t.faultRecorded = s.faultRecorded := by
  obtain ⟨m, rfl, -⟩ := exec_init_cases h
  exact ⟨rfl, rfl, rfl⟩

theorem exec_frameOut_flags {s t : State} (h : exec .frameOut s = .next t) :
    t.rangeErr = s.rangeErr ∧ t.illegalErr = s.illegalErr ∧ t.faultRecorded = s.faultRecorded := by
  rw [exec_frameOut_frame h]
  exact ⟨rfl, rfl, rfl⟩

/-- A command other than INIT leaves ILLEGAL_ERR, clears nothing, and records a RANGE_ERR it sets (R143, R149, R158). -/
theorem exec_flags {i : Instr} (h1 : i ≠ .init) {s t : State} (h : exec i s = .next t) :
    t.illegalErr = s.illegalErr ∧ (s.rangeErr = true → t.rangeErr = true) ∧
      (s.faultRecorded = true → t.faultRecorded = true) ∧
      (s.rangeErr = false → t.rangeErr = true → t.faultRecorded = true) := by
  by_cases h2 : i = .frameOut
  · subst h2
    obtain ⟨hr, hi, hg⟩ := exec_frameOut_flags h
    exact ⟨hi, hr.trans, hg.trans, fun hs ht => by simp [← hr, ht] at hs⟩
  · obtain ⟨v, hd⟩ := exec_drawn h1 h2 h
    refine ⟨hd.frame.1, fun hs => hd.range.2 (.inl hs), fun hs => hd.ghost.2 (.inl hs), fun hs ht => ?_⟩
    exact hd.ghost.2 (.inr ((hd.range.1 ht).resolve_left (by simp [hs])))

/-- FILL visits no coordinate off the grid (R82). -/
theorem exec_fill_rangeErr {v : Bool} {s t : State} (h : exec (.fill v) s = .next t) : t.rangeErr = s.rangeErr :=
  (drawPoints_drawn (ps := fillPoints) h).rangeErr_of_inGrid fun _ _ => mem_fillPoints.1

/-- Settles O51, command by command. -/
theorem commandsAndFlags : Obligations.CommandsAndFlags := by
  refine fun i s t h => ⟨?_, fun h1 => ?_, ?_⟩
  · rintro rfl
    obtain ⟨hr, hi, -⟩ := exec_init_flags h
    exact ⟨hr, hi⟩
  · obtain ⟨hi, hr, -⟩ := exec_flags h1 h
    exact ⟨hi, hr⟩
  · rintro (rfl | ⟨v, rfl⟩)
    · exact (exec_frameOut_flags h).1
    · exact exec_fill_rangeErr h

/-! ### What a step does to the flags -/

/-- What a step does to the flags and the ghost bit, by its cause. -/
inductive FlagStep (s t : State) : Prop where
  | reset (hreset : s.resetNext = true) (range : t.rangeErr = false) (illegal : t.illegalErr = false)
      (ghost : t.faultRecorded = s.faultRecorded)
  | noWord (range : t.rangeErr = s.rangeErr) (illegal : t.illegalErr = s.illegalErr)
      (ghost : t.faultRecorded = s.faultRecorded)
  | illegalWord (range : t.rangeErr = s.rangeErr) (illegal : t.illegalErr = true) (ghost : t.faultRecorded = true)
  | init {w : CmdWord} {ws : List CmdWord} (idle : s.afterHost.engine = .idle) (word : s.afterHost.words = w :: ws)
      (decoded : decode w = .ok .init) (range : t.rangeErr = false) (illegal : t.illegalErr = false)
      (ghost : t.faultRecorded = s.faultRecorded)
  | command (illegal : t.illegalErr = s.illegalErr) (range : s.rangeErr = true → t.rangeErr = true)
      (ghost : s.faultRecorded = true → t.faultRecorded = true)
      (raised : s.rangeErr = false → t.rangeErr = true → t.faultRecorded = true)

theorem step_flags {s t : State} (ht : step s = .next t) : FlagStep s t := by
  rcases step_cases s with
    ⟨ms, hm, hs⟩ | ⟨-, i, -, hs⟩ | ⟨-, -, -, hs⟩ | ⟨-, he, w, ws, hw, ⟨e, -, hs⟩ | ⟨i, hd, hs⟩⟩ <;> rw [hs] at ht
  · cases ht
    exact .reset (resetNext_iff.2 ⟨ms, hm⟩) rfl rfl rfl
  · rw [emitFrom_frame ht]
    exact .noWord (afterHost_rangeErr s) (afterHost_illegalErr s) (afterHost_faultRecorded s)
  · cases ht
    exact .noWord (afterHost_rangeErr s) (afterHost_illegalErr s) (afterHost_faultRecorded s)
  · cases ht
    exact .illegalWord (afterHost_rangeErr s) rfl rfl
  · by_cases hi : i = .init
    · subst hi
      obtain ⟨hr, hl, hg⟩ := exec_init_flags ht
      exact .init he hw hd hr hl (hg.trans (afterHost_faultRecorded s))
    · have hflags := exec_flags hi ht
      simp only [latch_illegalErr, latch_rangeErr, latch_faultRecorded, afterHost_illegalErr, afterHost_rangeErr,
        afterHost_faultRecorded] at hflags
      obtain ⟨hl, hr, hg, hraised⟩ := hflags
      exact .command hl hr hg hraised

/-- Settles O52: of the things a step can do to the flags only reset and INIT clear one, and they clear both. -/
theorem flagsClearedOnlyByResetOrInit : Obligations.FlagsClearedOnlyByResetOrInit := by
  intro s t ht hcleared
  cases step_flags ht with
  | reset hreset range illegal ghost => exact ⟨range, illegal, .inl hreset⟩
  | init idle word decoded range illegal ghost => exact ⟨range, illegal, .inr ⟨_, _, idle, word, decoded⟩⟩
  | noWord range illegal ghost => simp [range, illegal] at hcleared
  | illegalWord range illegal ghost => simp [range, illegal] at hcleared
  | command illegal range ghost raised =>
    rcases hcleared with ⟨hs, hclear⟩ | ⟨hs, hclear⟩
    · simp [range hs] at hclear
    · simp [← illegal, hclear] at hs

/-- No step sets both flags (R147). -/
theorem step_not_both_raised {s t : State} (ht : step s = .next t) :
    ¬ (s.rangeErr = false ∧ t.rangeErr = true ∧ s.illegalErr = false ∧ t.illegalErr = true) := by
  rintro ⟨hr, hr', hl, hl'⟩
  cases step_flags ht with
  | reset hreset range illegal ghost => simp [range] at hr'
  | init idle word decoded range illegal ghost => simp [range] at hr'
  | noWord range illegal ghost => simp [range, hr] at hr'
  | illegalWord range illegal ghost => simp [range, hr] at hr'
  | command illegal range ghost raised => simp [illegal, hl] at hl'

/-- Settles O53: an illegal word raises IllegalCommand only, and a command never raises it. -/
theorem oneWordOneCause : Obligations.OneWordOneCause := by
  intro s t ht
  refine ⟨step_not_both_raised ht, fun w ws e hr he hw hd => ?_, fun w ws i hr he hw hd hl => ?_⟩
  · cases (step_illegal_word hr he hw hd).symm.trans ht
    exact afterHost_rangeErr s
  · have hexec := (step_legal_word hr he hw hd).symm.trans ht
    by_cases hi : i = .init
    · subst hi
      simp [(exec_init_flags hexec).2.1] at hl
    · have hkept := (exec_flags hi hexec).1
      rwa [latch_illegalErr, afterHost_illegalErr, hl, eq_comm] at hkept

/-- Settles O54, by the things a step can do to the flags. -/
theorem ghostBitNeverCleared : Obligations.GhostBitNeverCleared := by
  intro s t ht
  cases step_flags ht with
  | reset hreset range illegal ghost => simp [range, illegal, ghost]
  | init idle word decoded range illegal ghost => simp [range, illegal, ghost]
  | noWord range illegal ghost => simp +contextual [range, illegal, ghost]
  | illegalWord range illegal ghost => simp [ghost]
  | command illegal range ghost raised => exact ⟨ghost, raised, fun hs ht => by simp [illegal, hs] at ht⟩

end Sys2Proof.Machine
end

section
/-! PROOFS for 40_framebuffer.md: FILL (R82), the round trip of PIXEL (R83) and the clear law of FILL (R84). -/

namespace Sys2Proof.Machine

/-! ### FILL -/

/-- The word of FILL: opcode 3, then V (R61, R82). -/
theorem encode_fill (v : Bool) :
    encode (.fill v) = 0x3000000000#40 ||| ((BitVec.ofBool v).setWidth 40 <<< 32) := by
  cases v <;> rfl

/-- FILL visits 64 rows of 128 pixels (R82). -/
theorem length_fillPoints : fillPoints.length = 8192 := by
  simp [fillPoints, List.length_flatMap]

/-- The first pixel FILL visits is the corner (R82). -/
theorem fillPoints_eq_cons : ∃ ps, fillPoints = ⟨0, 0⟩ :: ps :=
  List.head?_eq_some_iff.1 rfl

theorem exec_fill (v : Bool) (s : State) : exec (.fill v) s = drawPoints fillPoints v s := rfl

/-- FILL on an FB that holds no values stops at the first cell of the plane (R82; log 12). -/
theorem exec_fill_unwritten {v : Bool} {s : State} (h : s.fb.read 1 = none) :
    exec (.fill v) s = .fault (.uninitialisedRead 1) := by
  obtain ⟨ps, hps⟩ := fillPoints_eq_cons
  have hfirst : pixelWrite 0 0 v s = .fault (.uninitialisedRead 1) := pixelWrite_unwritten (by decide) h
  rw [exec_fill, hps, drawPoints, forEach, hfirst]
  rfl

/-- A byte all of whose bits are the same (R82). -/
theorem byte_of_all_bits {c : Byte} {v : Bool} (h : ∀ b, b ≤ 7 → c.getLsbD b = v) : c = if v then 0xFF else 0x00 := by
  refine BitVec.eq_of_getLsbD_eq fun b hb => ?_
  rw [h b (by omega)]
  cases v <;> interval_cases b <;> rfl

/-- A drawing of the whole grid leaves every cell of the plane all ones or all zeros (R82). -/
theorem Drawn.plane {s t : State} {v : Bool} (h : Drawn s t (fun x y => inGrid x y = true) v) {i : Nat} (h1 : 1 ≤ i)
    (h2 : i ≤ 1024) : t.fb.read i = some (if v then 0xFF else 0x00) := by
  have hbit : ∀ b, b ≤ 7 → (t.fb.read i).map (fun c => c.getLsbD b) = some v := fun b hb => by
    obtain ⟨hg, -⟩ := cell_of_pixel h1 h2 hb
    rw [← pixel_of_inverse t h1 h2 hb]
    exact h.visited _ _ hg hg
  obtain ⟨c, hc, -⟩ := Option.map_eq_some_iff.1 (hbit 0 (by decide))
  have hall : ∀ b, b ≤ 7 → c.getLsbD b = v := fun b hb => by simpa [hc] using hbit b hb
  rw [hc, byte_of_all_bits hall]

/-- A drawing that stays on the grid changes FB only (R46). -/
theorem Drawn.eq_of_inGrid {s t : State} {P : Int → Int → Prop} {v : Bool} (h : Drawn s t P v)
    (hP : ∀ x y, P x y → inGrid x y = true) : t = { s with fb := t.fb } := by
  have hghost : t.faultRecorded = s.faultRecorded := by
    refine Bool.eq_iff_iff.2 (h.ghost.trans (or_iff_left ?_))
    rintro ⟨x, y, hxy, hout⟩
    simp [hP x y hxy] at hout
  rw [h.rest, h.rangeErr_of_inGrid hP, hghost]

/-- FILL on a plane that holds values. -/
theorem exec_fill_result (v : Bool) {s : State} (h : s.readable fun _ _ => True) :
    ∃ t, exec (.fill v) s = .next t ∧ Drawn s t (fun x y => inGrid x y = true) v :=
  drawPoints_result (fun _ _ => mem_fillPoints) v fun x y _ => h x y trivial

/-- Settles O31: FILL draws the whole grid, and reads cell 1 first. -/
theorem fillResult : Obligations.FillResult := by
  refine fun v => ⟨encode_fill v, length_fillPoints, fun s h => ?_, fun s h => exec_fill_unwritten (h 1)⟩
  obtain ⟨t, ht, hd⟩ := exec_fill_result v h
  exact ⟨t, ht, hd, fun i => hd.plane, hd.outsidePlane 0 (.inl rfl), hd.eq_of_inGrid fun _ _ => id⟩

/-- Settles O33: after FILL 0 the plane is as after INIT, and the marker has stood in FB[0] all along. -/
theorem fillClearsToInit : Obligations.FillClearsToInit := by
  intro s hinv hinit
  obtain ⟨t, ht, hst⟩ := exec_fill_result true (readable_of_initialised hinit _)
  obtain ⟨u, hu, htu⟩ := exec_fill_result false
    (readable_of_initialised (fun k hk => exec_keeps_holds ht (hinit k hk)) _)
  obtain ⟨m, hm, hread, hmwf⟩ := execInit_next s
  have hplane : ∀ k, 1 ≤ k → k ≤ 1024 → u.fb.read k = some 0 := fun k => htu.plane
  have hmarker : u.fb.read 0 = some Config.dataMarker := by
    obtain ⟨b, hb⟩ := hinit 0 (by decide)
    rw [htu.outsidePlane 0 (.inl rfl), hst.outsidePlane 0 (.inl rfl), hb, hinv.marker b hb]
  refine ⟨t, u, _, ht, hu, hm, ?_, hmarker, hplane⟩
  have huwf : u.fb.wf = true := drawPoints_wf hu (drawPoints_wf ht hinv.canonical)
  refine Memory.ext_read huwf (hmwf hinv.canonical) fun k => ?_
  rw [clearErrors_fb, hread]
  split
  · rename_i hk
    rcases Nat.eq_zero_or_pos k with rfl | hpos
    · rw [hmarker, initByte_zero]
    · rw [hplane k hpos (Nat.le_of_lt_succ hk), initByte_of_pos hpos]
  · rename_i hk
    have hout : k = 0 ∨ Config.bufLen ≤ k := .inr (Nat.le_of_not_lt hk)
    rw [htu.outsidePlane k hout, hst.outsidePlane k hout]

/-! ### PIXEL 1 and then PIXEL 0 -/

theorem packBit_packBit (old : Byte) (b : Nat) (v w : Bool) : packBit (packBit old b v) b w = packBit old b w := by
  refine BitVec.eq_of_getLsbD_eq fun j hj => ?_
  rw [packBit_getLsbD _ _ hj, packBit_getLsbD _ _ hj, packBit_getLsbD _ _ hj]
  split <;> rfl

/-- A bit of a packed cell other than the pixel's, in or beyond the byte (R45). -/
theorem packBit_getLsbD_of_ne (old : Byte) {b j : Nat} (v : Bool) (h : j ≠ b) :
    (packBit old b v).getLsbD j = old.getLsbD j := by
  rcases Nat.lt_or_ge j 8 with hj | hj
  · rw [packBit_getLsbD old v hj, if_neg h]
  · rw [BitVec.getLsbD_of_ge _ _ hj, BitVec.getLsbD_of_ge _ _ hj]

/-- PIXEL on a grid pixel whose cell holds a value packs it into that cell (R81). -/
theorem exec_pixel_inGrid {x y : Byte} {v : Bool} {s : State} {old : Byte} (hg : inGrid x.toNat y.toNat = true)
    (ho : s.fb.read (cellIndex x.toNat y.toNat) = some old) :
    exec (.pixel x y v) s = .next { s with
      fb := s.fb.write (cellIndex x.toNat y.toNat) (packBit old (cellBit x.toNat y.toNat) v) } := by
  rw [exec_pixel, drawPoints_singleton]
  exact pixelWrite_inGrid hg ho

/-- Settles O32: the two commands pack the pixel's bit twice, which is packing 0. -/
theorem pixelRoundTrip : Obligations.PixelRoundTrip := by
  intro x y s hx hy hold
  obtain ⟨old, ho⟩ := hold
  have hg : inGrid x.toNat y.toNat = true := inGrid_iff.2 ⟨by omega, by omega, by omega, by omega⟩
  refine ⟨_, _, exec_pixel_inGrid hg ho, exec_pixel_inGrid hg (Memory.read_write_same _ _ _), ?_, fun i b hib => ?_,
    fun hclear i => ?_, rfl⟩
  · simp [State.pixel, packBit_getLsbD _ _ (cellBit_lt _ _)]
  · simp only [packBit_packBit]
    by_cases hi : cellIndex x.toNat y.toNat = i
    · have hb : b ≠ cellBit x.toNat y.toNat := hib.resolve_left fun h => h hi.symm
      rw [← hi, Memory.read_write_same, ho, Option.map_some, Option.map_some, packBit_getLsbD_of_ne old _ hb]
    · rw [Memory.read_write_other _ _ hi, Memory.read_write_other _ _ hi]
  · have hbit : old.getLsbD (cellBit x.toNat y.toNat) = false := by
      simpa [State.pixel, ho] using hclear
    simp only [packBit_packBit]
    by_cases hi : cellIndex x.toNat y.toNat = i
    · rw [← hi, Memory.read_write_same, ho, packBit_of_getLsbD_eq hbit]
    · rw [Memory.read_write_other _ _ hi, Memory.read_write_other _ _ hi]

end Sys2Proof.Machine
end

section
/-! PROOFS for 41_frame_output.md and 60_exceptions.md: a FRAME_OUT that waits (R157), and the one that is resumed. -/

namespace Sys2Proof.Machine

/-- A frame whose consumer takes no more stays where it is (R157). -/
theorem resumeFrame_stuck {s : State} {n : Nat} (hn : n < Config.bufLen) (he : s.engine = .emitting n)
    (hc : s.consumer = .upTo 0) (ho : s.holds n) : resumeFrame n s = .next s := by
  have h := emitFrom_waits (s := s) (i := n) (bs := []) rfl (Nat.sub_pos_of_lt hn) (Nat.add_sub_cancel' hn.le).le
    (fun j hj => absurd hj (Nat.not_lt_zero j)) ho hc
  rw [List.append_nil, List.length_nil, Nat.add_zero, ← he, ← hc] at h
  exact h

/-- A frame that waits with `bs` taken, resumed with a consumer that takes all (R91, R178). -/
theorem resumeFrame_whole {s : State} {n : Nat} {cs : List Byte} (hn : n < Config.bufLen)
    (hl : cs.length = Config.bufLen - n) (hr : ∀ j, j < Config.bufLen - n → s.fb.read (n + j) = cs[j]?)
    (hc : s.consumer = .always) :
    resumeFrame n s = .next (endFrame { s with inFlight := s.inFlight ++ cs }) := by
  have h := emitFrom_whole hl (Nat.add_sub_cancel' hn.le).le hr (by rw [hc]; rfl)
  rw [hc] at h
  rw [resumeFrame, h]
  simp only [Consumer.after, ← hc]

/-- Settles O49: the bytes below `n` are taken, and the state with byte `n` on offer steps to itself. -/
theorem frameOutWaitsForConsumer : Obligations.FrameOutWaitsForConsumer := by
  intro s n hn hinit hc
  obtain ⟨bs, rfl, hr⟩ := exists_bytes_of_holds fun i hi => hinit i (Nat.lt_trans hi hn)
  refine ⟨_, exec_frameOut_waits hn hr (hinit _ hn) hc, rfl, status_getLsbD_zero _, rfl, rfl, hr, rfl, rfl,
    fun hm => ?_⟩
  rw [step, turn, hm]
  exact resumeFrame_stuck hn rfl rfl (hinit _ hn)

/-- FRAME_OUT on an FB of the bytes `bs`, to a consumer that takes `n` of them (R157). -/
theorem exec_frameOut_paused {s : State} {bs : List Byte} {n : Nat} (hn : n < Config.bufLen)
    (hl : bs.length = Config.bufLen) (hr : ∀ i, i < Config.bufLen → s.fb.read i = bs[i]?) (ho : s.holds n) :
    exec .frameOut { s with consumer := .upTo n } =
      .next { s with inFlight := bs.take n, consumer := .upTo 0, engine := .emitting n } := by
  have htake : (bs.take n).length = n := by
    rw [List.length_take, hl]
    exact Nat.min_eq_left hn.le
  have hread : ∀ i, i < (bs.take n).length → s.fb.read i = (bs.take n)[i]? := fun i hi => by
    rw [htake] at hi
    rw [List.getElem?_take_of_lt hi]
    exact hr i (Nat.lt_trans hi hn)
  have h := exec_frameOut_waits (s := { s with consumer := .upTo n }) (htake.symm ▸ hn) hread (htake.symm ▸ ho)
    (by rw [htake])
  rwa [htake] at h

/-- Settles O50: the bytes taken before the pause and those taken after it are the bytes of FB. -/
theorem pausedFrameIsWholeFrame : Obligations.PausedFrameIsWholeFrame := by
  intro s t u n hn hmoves hinit ht hu
  obtain ⟨bs, hl, hr⟩ := exists_bytes_of_holds hinit
  have hwhole := exec_frameOut_whole (s := { s with consumer := .always }) hl hr rfl
  cases (exec_frameOut_paused hn hl hr (hinit n hn)).symm.trans ht
  cases hwhole.symm.trans hu
  refine ⟨rfl, ?_⟩
  have hrest : ∀ j, j < Config.bufLen - n → s.fb.read (n + j) = (bs.drop n)[j]? := fun j hj => by
    rw [List.getElem?_drop]
    exact hr _ (Nat.add_lt_of_lt_sub' hj)
  have hresume := resumeFrame_whole (cs := bs.drop n)
    (s := { s with inFlight := bs.take n, consumer := .always, engine := .emitting n }) hn
    (by rw [List.length_drop, hl]) hrest rfl
  rw [List.take_append_drop] at hresume
  refine Eq.trans ?_ hresume
  rw [hmoves]
  rfl

end Sys2Proof.Machine
end

section
/-! PROOFS for 42_rasterizer.md: LINE (R104), the step sign on a zero delta (R105), and its end (R106), up to the pixels
it sets. -/

namespace Sys2Proof.Machine

/-! ### The step sign on a zero delta -/

/-- Two loops with the same exit test, which advance alike wherever the invariant `I` of the second holds, have the same
trace. -/
theorem lineTrace_congr {p q : LineParams} {I : LineWork → Prop} (hend : ∀ w : LineWork, w.atEnd p = w.atEnd q)
    (hadv : ∀ w, I w → w.advance p = w.advance q ∧ I (w.advance q)) (fuel : Nat) {w : LineWork} (hw : I w) :
    lineTrace p fuel w = lineTrace q fuel w ∧ ∀ k ∈ lineTrace q fuel w, I k := by
  induction fuel generalizing w with
  | zero => exact ⟨rfl, fun k hk => by cases hk⟩
  | succ fuel ih =>
    obtain ⟨heq, hkeep⟩ := hadv w hw
    obtain ⟨htail, hall⟩ := ih hkeep
    rw [lineTrace, lineTrace, hend, heq, htail]
    refine ⟨rfl, fun k hk => ?_⟩
    rcases List.mem_cons.1 hk with rfl | hk
    · exact hw
    · split at hk
      · cases hk
      · exact hall k hk

theorem stepX_of_not {p : LineParams} {e2 : Int} {w : LineWork} (h : ¬ e2 > -p.dy) : w.stepX p e2 = w := if_neg h

theorem stepY_of_not {p : LineParams} {e2 : Int} {w : LineWork} (h : ¬ e2 < p.dx) : w.stepY p e2 = w := if_neg h

/-- On a vertical line the x test never holds: x and the error term stay (R105). -/
theorem advance_vertical {p : LineParams} {w : LineWork} (hx : p.dx = 0) (hy : 0 ≤ p.dy) (he : w.err = -p.dy) :
    w.advance p = w.stepY p (2 * w.err) ∧ (w.advance p).cx = w.cx ∧ (w.advance p).err = -p.dy := by
  have hadv : w.advance p = w.stepY p (2 * w.err) := by
    rw [LineWork.advance, stepX_of_not (by omega)]
  rw [hadv, LineWork.stepY]
  split <;> simp [he, hx]

/-- On a horizontal line the y test never holds: y and the error term stay (R105). -/
theorem advance_horizontal {p : LineParams} {w : LineWork} (hy : p.dy = 0) (hx : 0 ≤ p.dx) (he : w.err = p.dx) :
    w.advance p = w.stepX p (2 * w.err) ∧ (w.advance p).cy = w.cy ∧ (w.advance p).err = p.dx := by
  have hcy : (w.stepX p (2 * w.err)).cy = w.cy := by
    rw [LineWork.stepX]
    split <;> rfl
  have herr : (w.stepX p (2 * w.err)).err = p.dx := by
    rw [LineWork.stepX]
    split <;> simp [he, hy]
  have hadv : w.advance p = w.stepX p (2 * w.err) := by
    rw [LineWork.advance, stepY_of_not (by omega)]
  rw [hadv]
  exact ⟨rfl, hcy, herr⟩

/-- Settles O37: the axis whose delta is zero never moves, so the trace is the same for every sign. -/
theorem lineSignOnZeroDelta : Obligations.LineSignOnZeroDelta := by
  intro x0 y0 x1 y1 sgn fuel p w
  have hx : 0 ≤ p.dx := Int.natCast_nonneg _
  have hy : 0 ≤ p.dy := Int.natCast_nonneg _
  refine ⟨fun h => ?_, fun h => ?_⟩
  · have h0 : p.dx = 0 := by simp [p, lineParams, h]
    have hstart : w.cx = x0.toNat ∧ w.err = -p.dy := ⟨rfl, (congrArg (· - p.dy) h0).trans (Int.zero_sub _)⟩
    refine lineTrace_congr (p := { p with sx := sgn }) (q := p) (I := fun k => k.cx = x0.toNat ∧ k.err = -p.dy)
      (fun _ => rfl) (fun k hk => ?_) fuel hstart
    obtain ⟨hcx, herr⟩ := hk
    obtain ⟨hadv, hcx', herr'⟩ := advance_vertical h0 hy herr
    exact ⟨(advance_vertical (p := { p with sx := sgn }) h0 hy herr).1.trans hadv.symm, hcx'.trans hcx, herr'⟩
  · have h0 : p.dy = 0 := by simp [p, lineParams, h]
    have hstart : w.cy = y0.toNat ∧ w.err = p.dx := ⟨rfl, (congrArg (p.dx - ·) h0).trans (Int.sub_zero _)⟩
    refine lineTrace_congr (p := { p with sy := sgn }) (q := p) (I := fun k => k.cy = y0.toNat ∧ k.err = p.dx)
      (fun _ => rfl) (fun k hk => ?_) fuel hstart
    obtain ⟨hcy, herr⟩ := hk
    obtain ⟨hadv, hcy', herr'⟩ := advance_horizontal h0 hx herr
    exact ⟨(advance_horizontal (p := { p with sy := sgn }) h0 hx herr).1.trans hadv.symm, hcy'.trans hcy, herr'⟩

/-! ### Where the loop is after each iteration -/

/-- The number of iterations of LINE's loop before its exit: the larger of the two deltas (R106). -/
def lineSteps (x0 y0 x1 y1 : Int) : Nat := max (x1 - x0).natAbs (y1 - y0).natAbs

/-- The working registers of LINE after `m` iterations (R104). -/
def lineAt (x0 y0 x1 y1 : Int) (m : Nat) : LineWork := (lineParams x0 y0 x1 y1).at (lineStart x0 y0 x1 y1) m

/-- What R106 says of the registers after `m` iterations, of which `a` have stepped on x and `b` on y: each has stepped
on the major axis, none has stepped beyond the end, and the error term is bounded. -/
structure LineState (x0 y0 x1 y1 : Int) (m : Nat) (a b : Int) (w : LineWork) : Prop where
  cx : w.cx = x0 + (if x0 < x1 then 1 else -1) * a
  cy : w.cy = y0 + (if y0 < y1 then 1 else -1) * b
  stepsX : 0 ≤ a ∧ a ≤ (x1 - x0).natAbs
  stepsY : 0 ≤ b ∧ b ≤ (y1 - y0).natAbs
  major : if (y1 - y0).natAbs ≤ (x1 - x0).natAbs then a = m else b = m
  finish : m = lineSteps x0 y0 x1 y1 → a = (x1 - x0).natAbs ∧ b = (y1 - y0).natAbs
  err : 2 * w.err.natAbs ≤ max (2 * lineSteps x0 y0 x1 y1) (3 * lineSteps x0 y0 x1 y1 - 3)

section loop
variable {x0 y0 x1 y1 : Int}

theorem lineParams_dx : (lineParams x0 y0 x1 y1).dx = (x1 - x0).natAbs := rfl

theorem lineParams_dy : (lineParams x0 y0 x1 y1).dy = (y1 - y0).natAbs := rfl

theorem lineAt_zero : lineAt x0 y0 x1 y1 0 = lineStart x0 y0 x1 y1 := rfl

theorem lineAt_succ (m : Nat) :
    lineAt x0 y0 x1 y1 (m + 1) = (lineAt x0 y0 x1 y1 m).advance (lineParams x0 y0 x1 y1) :=
  LineParams.at_succ _ _ m

/-- On a line at least as wide as tall, and not a point, every iteration steps on x. -/
theorem lineAt_state_wide (hx : 0 < (x1 - x0).natAbs) (hxy : (y1 - y0).natAbs ≤ (x1 - x0).natAbs) {m : Nat}
    (hm : m ≤ (x1 - x0).natAbs) : ∃ b, LineState x0 y0 x1 y1 m m b (lineAt x0 y0 x1 y1 m) := by
  have hdx := lineParams_dx (x0 := x0) (y0 := y0) (x1 := x1) (y1 := y1)
  have hdy := lineParams_dy (x0 := x0) (y0 := y0) (x1 := x1) (y1 := y1)
  have hstart : MajorX (lineParams x0 y0 x1 y1) x0 y0 0 0 (lineStart x0 y0 x1 y1) := by
    constructor <;> simp only [lineStart, implies_true] <;> omega
  obtain ⟨j, hj, hmajor⟩ := majorX_at hstart (by omega) (by omega) (by omega) m
  obtain ⟨hle, hend⟩ := hmajor.minor (by omega) (by omega) (by omega)
  have hsteps : lineSteps x0 y0 x1 y1 = (x1 - x0).natAbs := max_eq_left hxy
  refine ⟨j, hmajor.cx, hmajor.cy, by omega, by omega, by rw [if_pos hxy], fun he => ?_, ?_⟩
  · have := hend (by omega)
    omega
  · have hlower := hmajor.lower
    have hupper := hmajor.upper
    have herr := hmajor.err
    rw [lineAt]
    rcases Nat.eq_zero_or_pos (y1 - y0).natAbs with h0 | hpos
    · obtain rfl : j = 0 := by omega
      rw [hdy, h0] at herr
      simp only [Nat.cast_zero, mul_zero, zero_mul] at herr
      omega
    · omega

/-- On a line taller than wide every iteration steps on y. -/
theorem lineAt_state_tall (hxy : (x1 - x0).natAbs < (y1 - y0).natAbs) {m : Nat} (hm : m ≤ (y1 - y0).natAbs) :
    ∃ a, LineState x0 y0 x1 y1 m a m (lineAt x0 y0 x1 y1 m) := by
  have hdx := lineParams_dx (x0 := x0) (y0 := y0) (x1 := x1) (y1 := y1)
  have hdy := lineParams_dy (x0 := x0) (y0 := y0) (x1 := x1) (y1 := y1)
  have hstart : MajorY (lineParams x0 y0 x1 y1) x0 y0 0 0 (lineStart x0 y0 x1 y1) := by
    constructor <;> simp only [lineStart] <;> omega
  obtain ⟨j, hj, hmajor⟩ := majorY_at hstart (by omega) (by omega) m
  obtain ⟨hle, hend⟩ := hmajor.minor (by omega) (by omega) (by omega)
  have hsteps : lineSteps x0 y0 x1 y1 = (y1 - y0).natAbs := max_eq_right hxy.le
  refine ⟨j, hmajor.cx, hmajor.cy, by omega, by omega, by rw [if_neg (by omega)], fun he => ?_, ?_⟩
  · have := hend (by omega)
    omega
  · have hlower := hmajor.lower
    have hupper := hmajor.upper
    have herr := hmajor.err
    rw [lineAt]
    rcases Nat.eq_zero_or_pos (x1 - x0).natAbs with h0 | hpos
    · obtain rfl : j = 0 := by omega
      rw [hdx, h0] at herr
      simp only [Nat.cast_zero, mul_zero, zero_mul] at herr
      omega
    · omega

/-- The registers after any number of iterations up to the larger delta (R106). -/
theorem lineAt_state {m : Nat} (hm : m ≤ lineSteps x0 y0 x1 y1) :
    ∃ a b, LineState x0 y0 x1 y1 m a b (lineAt x0 y0 x1 y1 m) := by
  unfold lineSteps at hm
  rcases Nat.lt_or_ge (x1 - x0).natAbs (y1 - y0).natAbs with htall | hwide
  · obtain ⟨a, h⟩ := lineAt_state_tall htall (m := m) (by omega)
    exact ⟨a, m, h⟩
  · rcases Nat.eq_zero_or_pos (x1 - x0).natAbs with h0 | hpos
    · obtain rfl : m = 0 := by omega
      refine ⟨0, 0, by simp [lineAt_zero, lineStart], by simp [lineAt_zero, lineStart], by omega, by omega, by simp,
        fun _ => by omega, ?_⟩
      simp only [lineAt_zero, lineStart, lineParams_dx, lineParams_dy]
      omega
    · obtain ⟨b, h⟩ := lineAt_state_wide hpos hwide (m := m) (by omega)
      exact ⟨m, b, h⟩

/-- So many unit steps towards `v` reach it. -/
theorem add_sign_mul_eq_iff {u v a : Int} (ha : 0 ≤ a) :
    u + (if u < v then 1 else -1) * a = v ↔ a = (v - u).natAbs := by
  split <;> omega

theorem atEnd_iff (w : LineWork) : w.atEnd (lineParams x0 y0 x1 y1) = true ↔ w.cx = x1 ∧ w.cy = y1 := by
  simp [LineWork.atEnd, lineParams]

/-- The loop meets its exit test after the last iteration and not before (R106). -/
theorem atEnd_lineAt {m : Nat} (hm : m ≤ lineSteps x0 y0 x1 y1) :
    (lineAt x0 y0 x1 y1 m).atEnd (lineParams x0 y0 x1 y1) = true ↔ m = lineSteps x0 y0 x1 y1 := by
  obtain ⟨a, b, h⟩ := lineAt_state hm
  rw [atEnd_iff, h.cx, h.cy, add_sign_mul_eq_iff h.stepsX.1, add_sign_mul_eq_iff h.stepsY.1]
  refine ⟨fun ⟨ha, hb⟩ => ?_, h.finish⟩
  have hmajor := h.major
  unfold lineSteps
  split at hmajor <;> omega

/-- LINE plots the points of its iterations, from the first to the one at which it exits (R104, R106). -/
theorem lineWorks_eq :
    lineWorks x0 y0 x1 y1 = (List.range (lineSteps x0 y0 x1 y1 + 1)).map (lineAt x0 y0 x1 y1) := by
  refine lineTrace_eq (n := lineSteps x0 y0 x1 y1) ?_ (fun m hm => ?_) ((atEnd_lineAt le_rfl).2 rfl)
  · unfold lineSteps
    omega
  · exact Bool.eq_false_iff.2 fun h => hm.ne ((atEnd_lineAt hm.le).1 h)

theorem linePoints_eq :
    linePoints x0 y0 x1 y1 = (List.range (lineSteps x0 y0 x1 y1 + 1)).map fun m =>
      ⟨(lineAt x0 y0 x1 y1 m).cx, (lineAt x0 y0 x1 y1 m).cy⟩ := by
  rw [linePoints, lineWorks_eq, List.map_map]
  rfl

/-! ### The loop as a relation -/

/-- One iteration, register by register (R104). -/
theorem advance_eq (p : LineParams) (w : LineWork) :
    w.advance p =
      ⟨if 2 * w.err > -p.dy then w.cx + p.sx else w.cx, if 2 * w.err < p.dx then w.cy + p.sy else w.cy,
        w.err - (if 2 * w.err > -p.dy then p.dy else 0) + (if 2 * w.err < p.dx then p.dx else 0)⟩ := by
  rw [LineWork.advance, LineWork.stepX]
  split <;> rw [LineWork.stepY] <;> split <;> simp

/-- What the loop of R104 plots with no bound on its iterations, an iteration up to the exit reaches. -/
theorem lineAt_of_linePlots {cx cy err : Int} (h : LinePlots x0 y0 x1 y1 cx cy err) :
    ∃ m, m ≤ lineSteps x0 y0 x1 y1 ∧ lineAt x0 y0 x1 y1 m = ⟨cx, cy, err⟩ := by
  induction h with
  | start => exact ⟨0, Nat.zero_le _, rfl⟩
  | step _ more ih =>
    obtain ⟨m, hm, hw⟩ := ih
    have hne : m ≠ lineSteps x0 y0 x1 y1 := fun he => more <| by
      have hend := (atEnd_lineAt hm).2 he
      rwa [hw, atEnd_iff] at hend
    exact ⟨m + 1, by omega, by rw [lineAt_succ, hw, advance_eq]; rfl⟩

/-- Every iteration up to the exit is a plot of the loop of R104. -/
theorem linePlots_lineAt {m : Nat} (hm : m ≤ lineSteps x0 y0 x1 y1) :
    LinePlots x0 y0 x1 y1 (lineAt x0 y0 x1 y1 m).cx (lineAt x0 y0 x1 y1 m).cy (lineAt x0 y0 x1 y1 m).err := by
  induction m with
  | zero => exact .start
  | succ m ih =>
    have hmore : ¬ ((lineAt x0 y0 x1 y1 m).cx = x1 ∧ (lineAt x0 y0 x1 y1 m).cy = y1) := fun hend => by
      have := (atEnd_lineAt (by omega)).1 ((atEnd_iff _).2 hend)
      omega
    rw [lineAt_succ, advance_eq]
    exact .step (ih (by omega)) hmore

theorem mem_linePoints {x y : Int} :
    (⟨x, y⟩ : Point) ∈ linePoints x0 y0 x1 y1 ↔ ∃ err, LinePlots x0 y0 x1 y1 x y err := by
  rw [linePoints_eq, List.mem_map]
  simp only [List.mem_range, Nat.lt_succ_iff, Point.mk.injEq]
  constructor
  · rintro ⟨m, hm, rfl, rfl⟩
    exact ⟨_, linePlots_lineAt hm⟩
  · rintro ⟨err, h⟩
    obtain ⟨m, hm, hw⟩ := lineAt_of_linePlots h
    exact ⟨m, hm, by rw [hw], by rw [hw]⟩

end loop

/-- The word of LINE: opcode 6, then V and its four operands (R61, R104). -/
theorem encode_line (x0 y0 x1 y1 : Byte) (v : Bool) :
    encode (.line x0 y0 x1 y1 v) =
      0x6000000000#40 ||| ((BitVec.ofBool v).setWidth 40 <<< 32) ||| (x0.setWidth 40 <<< 24) |||
        (y0.setWidth 40 <<< 16) ||| (x1.setWidth 40 <<< 8) ||| y1.setWidth 40 :=
  packWord_eq_or_shifts Opcode.line.number v x0 y0 x1 y1

theorem exec_line (x0 y0 x1 y1 : Byte) (v : Bool) (s : State) :
    exec (.line x0 y0 x1 y1 v) s = drawPoints (linePoints x0.toNat y0.toNat x1.toNat y1.toNat) v s := rfl

/-- Settles O36: the bounded loop of LINE plots what the relation without a bound plots. -/
theorem lineResult : Obligations.LineResult := by
  refine fun x0 y0 x1 y1 v => ⟨encode_line x0 y0 x1 y1 v, fun s h => ?_⟩
  rw [exec_line]
  exact drawPoints_result (fun _ _ => mem_linePoints) v h

end Sys2Proof.Machine
end

section
/-! PROOFS for 42_rasterizer.md: how many pixels a drawing sets, and with it the end of LINE (R106) and the outlines
(R101). -/

namespace Sys2Proof.Machine

/-! ### Pixels set -/

theorem upto_nodup (a b : Int) : (upto a b).Nodup :=
  List.nodup_range.map fun _ _ h => by simpa using h

/-- FILL visits every grid point once (R82). -/
theorem fillPoints_nodup : fillPoints.Nodup := by
  refine List.nodup_flatMap.2 ⟨fun y _ => (upto_nodup 0 127).map fun _ _ h => (Point.mk.inj h).1, ?_⟩
  refine (upto_nodup 0 63).imp fun hne => ?_
  rw [Function.onFun, List.disjoint_left]
  intro p hp hq
  obtain ⟨_, -, rfl⟩ := List.mem_map.1 hp
  obtain ⟨_, -, h⟩ := List.mem_map.1 hq
  exact hne (Point.mk.inj h).2.symm

/-- The pixels of the plane that are set. -/
def State.lit (s : State) : Finset Point := fillPoints.toFinset.filter fun p => s.pixel p.x p.y = some true

theorem State.mem_lit {s : State} {p : Point} : p ∈ s.lit ↔ inGrid p.x p.y = true ∧ s.pixel p.x p.y = some true := by
  rw [State.lit, Finset.mem_filter, List.mem_toFinset, mem_fillPoints]

theorem State.litCount_eq_card (s : State) : s.litCount = s.lit.card := by
  rw [State.litCount, ← List.toFinset_card_of_nodup (fillPoints_nodup.filter _), List.toFinset_filter, State.lit]
  simp only [beq_iff_eq]

/-- Drawing pixels of the grid that were clear, with V = 1, sets as many more as there are of them. -/
theorem Drawn.litCount {s t : State} {P : Int → Int → Prop} {A : Finset Point} (h : Drawn s t P true)
    (hA : ∀ p : Point, p ∈ A ↔ P p.x p.y) (hclear : ∀ p ∈ A, inGrid p.x p.y = true ∧ s.pixel p.x p.y = some false) :
    t.litCount = s.litCount + A.card := by
  have hunion : t.lit = s.lit ∪ A := by
    ext p
    rw [Finset.mem_union, State.mem_lit, State.mem_lit]
    by_cases hp : p ∈ A
    · obtain ⟨hg, -⟩ := hclear p hp
      simp [hp, hg, h.visited p.x p.y hg ((hA p).1 hp)]
    · simp only [hp, or_false]
      exact and_congr_right fun hg => by rw [h.notVisited p.x p.y hg fun hP => hp ((hA p).2 hP)]
  have hdisj : Disjoint s.lit A := Finset.disjoint_left.2 fun p hp hpA => by
    rw [State.mem_lit, (hclear p hpA).2] at hp
    simp at hp
  rw [State.litCount_eq_card, State.litCount_eq_card, hunion, Finset.card_union_of_disjoint hdisj]

/-! ### The end of LINE -/

section loop
variable {x0 y0 x1 y1 : Int}

theorem length_linePoints : (linePoints x0 y0 x1 y1).length = lineSteps x0 y0 x1 y1 + 1 := by
  rw [linePoints_eq, List.length_map, List.length_range]

/-- The plot after `m` iterations. -/
theorem getElem?_linePoints {m : Nat} {p : Point} (h : (linePoints x0 y0 x1 y1)[m]? = some p) :
    m ≤ lineSteps x0 y0 x1 y1 ∧ p.x = (lineAt x0 y0 x1 y1 m).cx ∧ p.y = (lineAt x0 y0 x1 y1 m).cy := by
  rw [linePoints_eq, List.getElem?_map, Option.map_eq_some_iff] at h
  obtain ⟨k, hk, rfl⟩ := h
  obtain ⟨hm, rfl⟩ := List.getElem?_eq_some_iff.1 hk
  rw [List.length_range] at hm
  rw [List.getElem_range]
  exact ⟨Nat.le_of_lt_succ hm, rfl, rfl⟩

theorem head?_linePoints : (linePoints x0 y0 x1 y1).head? = some ⟨x0, y0⟩ := by
  rw [linePoints_eq, List.range_succ_eq_map]
  rfl

/-- The last plot is the second endpoint: there the loop exits (R106). -/
theorem getLast?_linePoints : (linePoints x0 y0 x1 y1).getLast? = some ⟨x1, y1⟩ := by
  obtain ⟨hcx, hcy⟩ := (atEnd_iff _).1 ((atEnd_lineAt (x0 := x0) (y0 := y0) (x1 := x1) (y1 := y1) le_rfl).2 rfl)
  rw [linePoints_eq, List.range_succ, List.map_append, List.map_singleton, List.getLast?_concat, hcx, hcy]

/-- Two iterations plot different points, for their steps on the major axis differ (R106). -/
theorem linePoints_nodup : (linePoints x0 y0 x1 y1).Nodup := by
  rw [linePoints_eq]
  refine List.nodup_range.map_on fun m hm n hn h => ?_
  obtain ⟨a, b, hs⟩ := lineAt_state (Nat.le_of_lt_succ (List.mem_range.1 hm))
  obtain ⟨a', b', hs'⟩ := lineAt_state (Nat.le_of_lt_succ (List.mem_range.1 hn))
  obtain ⟨hx, hy⟩ := Point.mk.inj h
  rw [hs.cx, hs'.cx] at hx
  rw [hs.cy, hs'.cy] at hy
  have hmajor := hs.major
  have hmajor' := hs'.major
  split at hmajor <;> split at hmajor'
  · split at hx <;> omega
  · omega
  · omega
  · split at hy <;> omega

/-- An iteration steps at most once on each axis, towards the end (R104). -/
theorem lineAt_succ_cases (m : Nat) :
    ((lineAt x0 y0 x1 y1 (m + 1)).cx = (lineAt x0 y0 x1 y1 m).cx ∨
      (lineAt x0 y0 x1 y1 (m + 1)).cx = (lineAt x0 y0 x1 y1 m).cx + if x0 < x1 then 1 else -1) ∧
    ((lineAt x0 y0 x1 y1 (m + 1)).cy = (lineAt x0 y0 x1 y1 m).cy ∨
      (lineAt x0 y0 x1 y1 (m + 1)).cy = (lineAt x0 y0 x1 y1 m).cy + if y0 < y1 then 1 else -1) := by
  rw [lineAt_succ, advance_eq]
  exact ⟨(ite_eq_or_eq _ _ _).symm, (ite_eq_or_eq _ _ _).symm⟩

/-- Every plot lies in the bounding box of the endpoints (R106). -/
theorem linePoints_box {p : Point} (h : p ∈ linePoints x0 y0 x1 y1) :
    min x0 x1 ≤ p.x ∧ p.x ≤ max x0 x1 ∧ min y0 y1 ≤ p.y ∧ p.y ≤ max y0 y1 := by
  obtain ⟨m, hm⟩ := List.mem_iff_getElem?.1 h
  obtain ⟨hle, hx, hy⟩ := getElem?_linePoints hm
  obtain ⟨a, b, hs⟩ := lineAt_state hle
  obtain ⟨hx0, hx1⟩ := hs.stepsX
  obtain ⟨hy0, hy1⟩ := hs.stepsY
  rw [hx, hy, hs.cx, hs.cy]
  constructor
  · split <;> omega
  refine ⟨?_, ?_, ?_⟩
  · split <;> omega
  · split <;> omega
  · split <;> omega

/-- On a line between grid points every plot is on the grid (R106). -/
theorem linePoints_inGrid (h0 : inGrid x0 y0 = true) (h1 : inGrid x1 y1 = true) {p : Point}
    (h : p ∈ linePoints x0 y0 x1 y1) : inGrid p.x p.y = true := by
  have hbox := linePoints_box h
  rw [inGrid_iff] at h0 h1 ⊢
  omega

/-- The error term of a line whose deltas fit an operand (R106). -/
theorem lineWorks_err (hx : (x1 - x0).natAbs ≤ 255) (hy : (y1 - y0).natAbs ≤ 255) {w : LineWork}
    (h : w ∈ lineWorks x0 y0 x1 y1) : w.err.natAbs ≤ 381 ∧ (2 * w.err).natAbs ≤ 762 := by
  rw [lineWorks_eq] at h
  obtain ⟨m, hm, rfl⟩ := List.mem_map.1 h
  obtain ⟨a, b, hs⟩ := lineAt_state (Nat.le_of_lt_succ (List.mem_range.1 hm))
  have herr := hs.err
  unfold lineSteps at herr
  omega

end loop

/-- Settles O38: the iterations up to the exit, and the drawing of their plots. -/
theorem lineTerminates : Obligations.LineTerminates := by
  intro x0 y0 x1 y1 ws ps
  have hx0 := x0.isLt
  have hy0 := y0.isLt
  have hx1 := x1.isLt
  have hy1 := y1.isLt
  have hlength : ps.length = lineSteps x0.toNat y0.toNat x1.toNat y1.toNat + 1 := length_linePoints
  refine ⟨hlength, head?_linePoints, getLast?_linePoints, linePoints_nodup, fun k p q hp hq => ?_,
    fun p hp => linePoints_box hp, fun w hw => lineWorks_err (by omega) (by omega) hw, fun h1 h2 h3 h4 => ?_⟩
  · obtain ⟨-, hpx, hpy⟩ := getElem?_linePoints hp
    obtain ⟨-, hqx, hqy⟩ := getElem?_linePoints hq
    rw [hpx, hpy, hqx, hqy]
    simpa only [Nat.cast_lt] using
      lineAt_succ_cases (x0 := x0.toNat) (y0 := y0.toNat) (x1 := x1.toNat) (y1 := y1.toNat) k
  · have hgrid : ∀ p ∈ ps, inGrid p.x p.y = true := fun p hp =>
      linePoints_inGrid (inGrid_iff.2 (by omega)) (inGrid_iff.2 (by omega)) hp
    refine ⟨fun v s t ht => ?_, fun s t hclear ht => ?_⟩
    · rw [exec_line] at ht
      exact (drawPoints_drawn ht).rangeErr_of_inGrid fun x y hxy => hgrid ⟨x, y⟩ hxy
    · rw [exec_line] at ht
      have hcount := (drawPoints_drawn ht).litCount (A := ps.toFinset) (fun p => List.mem_toFinset)
        fun p hp => ⟨hgrid p (List.mem_toFinset.1 hp), hclear p (List.mem_toFinset.1 hp)⟩
      rw [hcount, List.toFinset_card_of_nodup linePoints_nodup, hlength]
      rfl

/-! ### Outlines -/

/-- A point from its pair of coordinates. -/
def Point.ofPair : Int × Int ↪ Point where
  toFun c := ⟨c.1, c.2⟩
  inj' _ _ h := Prod.ext_iff.2 (Point.mk.inj h)

@[simp] theorem Point.ofPair_apply (x y : Int) : Point.ofPair (x, y) = ⟨x, y⟩ := rfl

/-- A rectangle of points. -/
noncomputable def box (x0 x1 y0 y1 : Int) : Finset Point :=
  (Finset.Icc x0 x1 ×ˢ Finset.Icc y0 y1).map Point.ofPair

theorem mem_box {x0 x1 y0 y1 : Int} {p : Point} : p ∈ box x0 x1 y0 y1 ↔ x0 ≤ p.x ∧ p.x ≤ x1 ∧ y0 ≤ p.y ∧ p.y ≤ y1 := by
  obtain ⟨x, y⟩ := p
  simp [box, and_assoc]

theorem card_box (x0 x1 y0 y1 : Int) : (box x0 x1 y0 y1).card = (x1 + 1 - x0).toNat * (y1 + 1 - y0).toNat := by
  rw [box, Finset.card_map, Finset.card_product, Int.card_Icc, Int.card_Icc]

/-- An outline of sizes at least 1 is its rectangle without the interior (R101). -/
theorem rectPoints_toFinset {top left w h : Int} (hw : 1 ≤ w) (hh : 1 ≤ h) :
    (rectPoints top left w h).toFinset =
      box left (left + w - 1) top (top + h - 1) \ box (left + 1) (left + w - 2) (top + 1) (top + h - 2) := by
  ext ⟨x, y⟩
  rw [List.mem_toFinset, mem_rectPoints, Finset.mem_sdiff, mem_box, mem_box]
  simp only
  omega

/-- An outline of width 0 is the column of its left edge and the column before it (R101). -/
theorem rectPoints_toFinset_width_zero (top left h : Int) :
    (rectPoints top left 0 h).toFinset = box (left - 1) left top (top + h - 1) := by
  ext ⟨x, y⟩
  rw [List.mem_toFinset, mem_rectPoints, mem_box]
  simp only
  omega

/-- An outline of height 0 is the row of its top edge and the row before it (R101). -/
theorem rectPoints_toFinset_height_zero (top left w : Int) :
    (rectPoints top left w 0).toFinset = box left (left + w - 1) (top - 1) top := by
  ext ⟨x, y⟩
  rw [List.mem_toFinset, mem_rectPoints, mem_box]
  simp only
  omega

theorem card_rectPoints (top left : Int) {w h : Nat} (hw : 1 ≤ w) (hh : 1 ≤ h) :
    (rectPoints top left w h).toFinset.card = w * h - (w - 2) * (h - 2) := by
  have hsub : box (left + 1) (left + w - 2) (top + 1) (top + h - 2) ⊆ box left (left + w - 1) top (top + h - 1) := by
    intro p
    rw [mem_box, mem_box]
    omega
  rw [rectPoints_toFinset (by omega) (by omega), Finset.card_sdiff_of_subset hsub, card_box, card_box]
  congr 2 <;> omega

theorem card_rectPoints_width_zero (top left : Int) (h : Nat) : (rectPoints top left 0 h).toFinset.card = 2 * h := by
  rw [rectPoints_toFinset_width_zero, card_box]
  congr 1 <;> omega

theorem card_rectPoints_height_zero (top left : Int) (w : Nat) : (rectPoints top left w 0).toFinset.card = 2 * w := by
  rw [rectPoints_toFinset_height_zero, card_box, Nat.mul_comm]
  congr 1 <;> omega

/-- The border of a rectangle of sizes at least 2 (R101). -/
theorem border_count {w h : Nat} (hw : 2 ≤ w) (hh : 2 ≤ h) : w * h - (w - 2) * (h - 2) + 4 = 2 * (w + h) := by
  obtain ⟨w, rfl⟩ := Nat.exists_eq_add_of_le' hw
  obtain ⟨h, rfl⟩ := Nat.exists_eq_add_of_le' hh
  have hsum : (w + 2) * (h + 2) = w * h + (2 * w + 2 * h + 4) := by ring
  rw [hsum, Nat.add_sub_cancel, Nat.add_sub_cancel, Nat.add_sub_cancel_left]
  ring

/-- A pixel that reads as a value lies in a cell that holds one. -/
theorem holds_of_pixel {s : State} {x y : Int} {v : Bool} (h : s.pixel x y = some v) : s.holds (cellIndex x y) := by
  obtain ⟨c, hc, -⟩ := Option.map_eq_some_iff.1 h
  exact ⟨c, hc⟩

/-- Settles O40: RECT sets as many pixels as its outline has points. -/
theorem outlinePixelCount : Obligations.OutlinePixelCount := by
  intro top left width height s hclear
  refine ⟨length_rectPoints _ _ _ _, ?_⟩
  obtain ⟨t, ht⟩ := drawPoints_completes (v := true)
    (ps := rectPoints top.toNat left.toNat width.toNat height.toNat) (s := s)
    fun x y hxy _ => holds_of_pixel (hclear ⟨x, y⟩ hxy).2
  have hcount := (drawPoints_drawn ht).litCount (fun p => List.mem_toFinset)
    fun p hp => hclear p (List.mem_toFinset.1 hp)
  refine ⟨t, ht, fun hw hh => ?_, fun hw hh => ?_, fun hw => ?_, fun hh => ?_⟩
  · rw [hcount, card_rectPoints _ _ hw hh]
  · rw [hcount, card_rectPoints _ _ (by omega) (by omega), Nat.add_assoc, border_count hw hh]
  · rw [hcount, hw]
    exact congrArg (s.litCount + ·) (card_rectPoints_width_zero _ _ _)
  · rw [hcount, hh]
    exact congrArg (s.litCount + ·) (card_rectPoints_height_zero _ _ _)

end Sys2Proof.Machine
end

section
/-! PROOFS for 43_stamps.md and 70_reset_and_hazards.md: the outline as a walk (R128), the bounds of every coordinate
(R121), and the margins of the stamped borders (R180). -/

namespace Sys2Proof.Machine

/-- The offsets of the walk with spacing 1 are those of the outline's passes (R128). -/
theorem walkOffsets_one (size : Int) : walkOffsets 1 size = upto 0 (size - 1) := by
  rcases Int.le_total 0 size with h | h
  · obtain ⟨n, rfl⟩ := Int.eq_ofNat_of_zero_le h
    have hwalk := walkOffsets_eq_map (spacing := 1) Nat.one_pos n
    rw [Nat.cast_one] at hwalk
    rw [hwalk, upto]
    simp
  · have hsize : size.toNat = 0 := by omega
    have hupto : (size - 1 - 0 + 1).toNat = 0 := by omega
    rw [walkOffsets, upto, hsize, hupto]
    rfl

/-- Settles O42: the two walk over the same offsets with the same two pixels at each. -/
theorem rectOutlineIsUnitWalk : Obligations.RectOutlineIsUnitWalk := by
  intro top left w h
  rw [walkPoints, walkOffsets_one, walkOffsets_one]
  rfl

/-! ### Bounds of the coordinates -/

/-- Every anchor of a walk on 8-bit operands (R121). -/
theorem walkAnchor_bounds {top left w h : Byte} {spacing q px py : Int} (hs : 1 ≤ spacing) (hq : 1 ≤ q)
    (ha : WalkAnchor (zext top) (zext left) (zext w) (zext h) spacing q px py) :
    -q ≤ px ∧ px ≤ 509 ∧ -q ≤ py ∧ py ≤ 509 := by
  have ht := zext_le top
  have hl := zext_le left
  have hw := zext_le w
  have hh := zext_le h
  have ht0 := zext_nonneg top
  have hl0 := zext_nonneg left
  have hw0 := zext_nonneg w
  have hh0 := zext_nonneg h
  rcases ha with ⟨k, hk, rfl, hpy⟩ | ⟨k, hk, rfl, hpx⟩
  · have hk0 : 0 ≤ (k : Int) * spacing := by positivity
    omega
  · have hk0 : 0 ≤ (k : Int) * spacing := by positivity
    omega

/-- The walk with the one-pixel stamp visits its anchors (R128). -/
theorem mem_walkPoints_dotStamp {top left w h spacing q : Int} {p : Point} (hs : 1 ≤ spacing) :
    p ∈ walkPoints top left w h spacing q dotStamp ↔ WalkAnchor top left w h spacing q p.x p.y := by
  rw [mem_walkPoints_iff_anchor hs]
  constructor
  · rintro ⟨px, py, ha, hp⟩
    obtain rfl := List.mem_singleton.1 hp
    exact ha
  · exact fun ha => ⟨p.x, p.y, ha, List.mem_singleton_self _⟩

/-- The coordinates of a stamped border, when its stamp reaches at most `low` before and `high` beyond the anchor. -/
theorem walkPoints_bounds {top left w h : Byte} {spacing q low high : Int} {stamp : Int → Int → List Point}
    (hs : 1 ≤ spacing) (hq : 1 ≤ q)
    (hstamp : ∀ px py, ∀ p ∈ stamp px py, px - low ≤ p.x ∧ p.x ≤ px + high ∧ py - low ≤ p.y ∧ p.y ≤ py + high)
    {p : Point} (hp : p ∈ walkPoints (zext top) (zext left) (zext w) (zext h) spacing q stamp) :
    -q - low ≤ p.x ∧ p.x ≤ 509 + high ∧ -q - low ≤ p.y ∧ p.y ≤ 509 + high := by
  obtain ⟨px, py, ha, hp⟩ := (mem_walkPoints_iff_anchor hs).1 hp
  have hanchor := walkAnchor_bounds hs hq ha
  have hreach := hstamp px py p hp
  omega

theorem starStamp_reach (px py : Int) :
    ∀ p ∈ starStamp px py, px - 1 ≤ p.x ∧ p.x ≤ px + 1 ∧ py - 1 ≤ p.y ∧ p.y ≤ py + 1 := by
  rintro ⟨x, y⟩ hp
  rw [mem_starStamp] at hp
  simp only
  omega

theorem heartStamp_reach (px py : Int) :
    ∀ p ∈ heartStamp px py, px - 2 ≤ p.x ∧ p.x ≤ px + 2 ∧ py - 1 ≤ p.y ∧ p.y ≤ py + 2 := by
  rintro ⟨x, y⟩ hp
  rw [mem_heartStamp] at hp
  simp only
  omega

theorem squareStamp_reach (px py : Int) :
    ∀ p ∈ squareStamp px py, px - 0 ≤ p.x ∧ p.x ≤ px + 2 ∧ py - 0 ≤ p.y ∧ p.y ≤ py + 2 := by
  rintro ⟨x, y⟩ hp
  rw [mem_squareStamp] at hp
  simp only
  omega

/-- Every coordinate that a command hands to PixelWrite (R121). -/
theorem drawnPoints_bounds (i : Instr) {p : Point} (hp : p ∈ drawnPoints i) :
    -3 ≤ p.x ∧ p.x ≤ 511 ∧ -3 ≤ p.y ∧ p.y ≤ 511 := by
  have lo := zext_nonneg
  have hi := zext_le
  obtain ⟨a, b⟩ := p
  cases i with
  | init => cases hp
  | frameOut => cases hp
  | pixel x y v =>
    obtain ⟨rfl, rfl⟩ := Point.mk.inj (List.mem_singleton.1 hp)
    exact ⟨by linarith [lo x], by linarith [hi x], by linarith [lo y], by linarith [hi y]⟩
  | fill v =>
    have := inGrid_iff.1 (mem_fillPoints.1 hp)
    simp only
    omega
  | hline x0 x1 y v =>
    obtain ⟨h0, h1, rfl⟩ := mem_hlinePoints.1 hp
    exact ⟨by linarith [lo x0], by linarith [hi x1], by linarith [lo y], by linarith [hi y]⟩
  | vline x y0 y1 v =>
    obtain ⟨rfl, h0, h1⟩ := mem_vlinePoints.1 hp
    exact ⟨by linarith [lo x], by linarith [hi x], by linarith [lo y0], by linarith [hi y1]⟩
  | line x0 y0 x1 y1 v =>
    have hbox := linePoints_box hp
    have := lo x0; have := lo x1; have := lo y0; have := lo y1
    have := hi x0; have := hi x1; have := hi y0; have := hi y1
    omega
  | rect t l w h v =>
    have hrect := mem_rectPoints.1 hp
    have := lo t; have := lo l; have := lo w; have := lo h
    have := hi t; have := hi l; have := hi w; have := hi h
    simp only
    omega
  | star t l w h v =>
    have := walkPoints_bounds (by decide) (by decide) starStamp_reach hp
    omega
  | heart t l w h v =>
    have hreach : ∀ px py, ∀ p ∈ heartStamp px py,
        px - 2 ≤ p.x ∧ p.x ≤ px + 2 ∧ py - 2 ≤ p.y ∧ p.y ≤ py + 2 := fun px py p hp => by
      have := heartStamp_reach px py p hp
      omega
    have := walkPoints_bounds (by decide) (by decide) hreach hp
    omega
  | square t l w h v =>
    have := walkPoints_bounds (q := 3) (by decide) (by decide) squareStamp_reach hp
    omega

/-- Settles O43: the anchors of a walk are bounded by its operands, the coordinates by the reach of its stamp. -/
theorem coordinateBounds : Obligations.CoordinateBounds := by
  refine ⟨fun top left width height p hp => ?_, fun i p => drawnPoints_bounds i⟩
  rcases hp with hp | hp | hp
  all_goals
    have := walkAnchor_bounds (by decide) (by decide) ((mem_walkPoints_dotStamp (by decide)).1 hp)
    omega

/-! ### Margins -/

/-- The anchors of a walk lie inside its rectangle when no sample comes closer than `q` to the far edge (R120). -/
theorem walkAnchor_inside {top left w h spacing q px py : Int} (hs : 1 ≤ spacing) (hqw : q ≤ w) (hqh : q ≤ h)
    (hw : ∀ k : Nat, k * spacing < w → k * spacing + q ≤ w) (hh : ∀ k : Nat, k * spacing < h → k * spacing + q ≤ h)
    (ha : WalkAnchor top left w h spacing q px py) :
    left ≤ px ∧ px ≤ left + w - q ∧ top ≤ py ∧ py ≤ top + h - q := by
  rcases ha with ⟨k, hk, rfl, hpy⟩ | ⟨k, hk, rfl, hpx⟩
  · have hk0 : 0 ≤ (k : Int) * spacing := by positivity
    have := hw k hk
    omega
  · have hk0 : 0 ≤ (k : Int) * spacing := by positivity
    have := hh k hk
    omega

/-- A stamped border whose stamps all lie on the grid leaves RANGE_ERR alone. -/
theorem drawPoints_walk_rangeErr {top left w h spacing q : Int} {stamp : Int → Int → List Point} {v : Bool}
    {s t : State} (hs : 1 ≤ spacing) (ht : drawPoints (walkPoints top left w h spacing q stamp) v s = .next t)
    (hin : ∀ px py, WalkAnchor top left w h spacing q px py → ∀ p ∈ stamp px py, inGrid p.x p.y = true) :
    t.rangeErr = s.rangeErr := by
  refine (drawPoints_drawn ht).rangeErr_of_inGrid fun x y hxy => ?_
  obtain ⟨px, py, ha, hp⟩ := (mem_walkPoints_iff_anchor hs).1 hxy
  exact hin px py ha ⟨x, y⟩ hp

/-- The anchors of a walk with offset 1 lie inside its rectangle, for a sample below the size leaves one pixel. -/
theorem walkAnchor_inside_one {top left w h spacing px py : Int} (hs : 1 ≤ spacing) (hw : 1 ≤ w) (hh : 1 ≤ h)
    (ha : WalkAnchor top left w h spacing 1 px py) :
    left ≤ px ∧ px ≤ left + w - 1 ∧ top ≤ py ∧ py ≤ top + h - 1 :=
  walkAnchor_inside hs hw hh (fun _ => Int.add_one_le_of_lt) (fun _ => Int.add_one_le_of_lt) ha

/-- On an edge whose size is 0 or 3 by 4, every sample leaves the 3 pixels of its square (R180). -/
theorem square_fits {size : Byte} (h : size.toNat % 4 ∈ [0, 3]) (k : Nat) (hk : k * 4 < zext size) :
    k * 4 + 3 ≤ zext size := by
  simp only [zext, List.mem_cons, List.not_mem_nil, or_false] at *
  omega

/-- Settles O47: within the margins the stamps at all anchors lie on the grid. -/
theorem stampMarginsKeepRangeErr : Obligations.StampMarginsKeepRangeErr := by
  intro top left width height v s t hw hh
  have hw1 : 1 ≤ zext width := Nat.cast_le.2 hw
  have hh1 : 1 ≤ zext height := Nat.cast_le.2 hh
  refine ⟨fun hl ht hr hb h => ?_, fun hl ht hr hb h => ?_, fun hw3 hh3 hw4 hh4 hr hb h => ?_⟩
  · rw [exec_star] at h
    refine drawPoints_walk_rangeErr (by decide) h fun px py ha p hp => inGrid_iff.2 ?_
    have hanchor := walkAnchor_inside_one (by decide) hw1 hh1 ha
    have hreach := starStamp_reach px py p hp
    simp only [zext] at hanchor
    omega
  · rw [exec_heart] at h
    refine drawPoints_walk_rangeErr (by decide) h fun px py ha p hp => inGrid_iff.2 ?_
    have hanchor := walkAnchor_inside_one (by decide) hw1 hh1 ha
    have hreach := heartStamp_reach px py p hp
    simp only [zext] at hanchor
    omega
  · rw [exec_square] at h
    refine drawPoints_walk_rangeErr (by decide) h fun px py ha p hp => inGrid_iff.2 ?_
    have hanchor := walkAnchor_inside (by decide) (Nat.cast_le.2 hw3) (Nat.cast_le.2 hh3) (square_fits hw4)
      (square_fits hh4) ha
    have hreach := squareStamp_reach px py p hp
    simp only [zext] at hanchor
    omega

end Sys2Proof.Machine
end
